-- ==== Sys2Proof/Word.lean ====
section
/-! DEFINITION. The word types of the engine: the byte, the 32-bit register word, and the 16-byte block that keys, IVs,
challenges and cipher blocks all are (00_scope.md R9, R14, R15; 10_state.md R21). -/

namespace Sys2Proof

/-- One byte of operand memory (20_memory.md R50: "Every byte is 8 bits"). -/
abbrev Byte := BitVec 8

/-- A 32-bit value: a register, a command word, a SHA-256 word (10_state.md R21, 00_scope.md R15). -/
abbrev Word := BitVec 32

/-- A 16-byte string: a key, an IV, a challenge or one cipher block (00_scope.md R9), first byte first. -/
abbrev Block := Vector Byte 16

end Sys2Proof
end

