-- ==== Sys2Proof/Config.lean ====
section
/-! DEFINITION. What a platform fixes and the spec leaves open, and the free values of the model. Every constant here
is opaque: it has no body, so a statement that holds of it holds whatever its value is. -/

namespace Sys2Proof.Config

/-- `MEM_SIZE` less 2: any number from 0 to 2^32 - 2 (00_scope.md R10: `2 <= MEM_SIZE <= 2^32`). OPEN. -/
opaque memSizeLess2 : Fin 4294967295

/-- `MEM_SIZE`, the number of bytes of operand memory (00_scope.md R10, 20_memory.md R50), inside its bounds by
construction. Log 2. -/
def memSize : Nat := 2 + memSizeLess2.val

/-- `BASE`, the host-bus address of the register block, in units of 64 bytes: "64-byte aligned" (00_scope.md R10,
10_state.md R21) by construction. OPEN. Log 3. -/
opaque baseBlock : Nat

/-- The block cipher under each key, "consumed as an external capability" (00_scope.md R3, R12). OPEN. It is a
permutation of the 16-byte blocks: that is the law of R12, `D(k, E(k, b)) = b`, and nothing more (on a finite set a
left inverse is an inverse). Log 4. -/
opaque blockCipher : Block → Equiv.Perm Block

/-- `E(key, block)` of 00_scope.md R12. -/
def encrypt (key b : Block) : Block := blockCipher key b

/-- `D(key, block)` of 00_scope.md R12. -/
def decrypt (key b : Block) : Block := (blockCipher key).symm b

/-- FREE VALUE: what byte `addr` of `M` holds after the reset number `resets`, when nothing has written it since
(20_memory.md R57: "reading a value it does not know (a draw)"). Log 6. -/
opaque powerOnByte (resets addr : Nat) : Byte

/-- FREE VALUE: word `i` of `UCTX.H` where the field holds no defined value (10_state.md R34). Log 8. -/
opaque freeH (draw i : Nat) : Word

/-- FREE VALUE: byte `i` of `UCTX.BLK` where the field holds no defined value (10_state.md R34). Log 8. -/
opaque freeBlk (draw i : Nat) : Byte

/-- FREE VALUE: `UCTX.PEND_LEN`, 7 bits, where the field holds no defined value (10_state.md R34). Log 8. -/
opaque freePendLen (draw : Nat) : Fin 128

/-- FREE VALUE: `UCTX.COUNT`, 64 bits, where the field holds no defined value (10_state.md R34). Log 8. -/
opaque freeCount (draw : Nat) : BitVec 64

/-- FREE VALUE: what a host register read outside this engine's block returns (10_state.md R21 gives the block 64 bytes
of the host bus and says nothing of the rest). Log 3. -/
opaque elsewhereWord (draw : Nat) : Word

/-- FREE VALUE: what a host read of an address that is no byte of `M` returns (20_memory.md R50, R61). Log 10. -/
opaque elsewhereByte (draw addr : Nat) : Byte

end Sys2Proof.Config
end

