-- ==== Sys2Proof/Syntax.lean ====
section
/-! DEFINITION. The seven commands of the engine, one constructor per row of spec/opcode_table.json (30_encoding.md R72).
A command word holds no operand (R75), so no constructor has a field: the operands are the ARG registers (R74). -/

namespace Sys2Proof

/-- The commands, in the order of the opcode map (30_encoding.md R72). -/
inductive Instr where
  /-- `SHA_INIT`, 0x00000001: start a new message (40_sha256.md R106). -/
  | shaInit
  /-- `SHA_UPDATE`, 0x00000002: absorb bytes (40_sha256.md R107). -/
  | shaUpdate
  /-- `SHA_FINAL`, 0x00000003: write the digest (40_sha256.md R109). -/
  | shaFinal
  /-- `HMAC`, 0x00000010: HMAC-SHA256 with a 16-byte key (41_hmac.md R141). -/
  | hmac
  /-- `CBC_CIPHER`, 0x00000020: encrypt a buffer in place (42_cbc.md R161). -/
  | cbcCipher
  /-- `CBC_DECIPHER`, 0x00000021: decrypt a buffer in place (42_cbc.md R162). -/
  | cbcDecipher
  /-- `KDF_DERIVE`, 0x00000030: derive the session key material (43_kdf.md R182). -/
  | kdfDerive
  deriving DecidableEq, Repr

end Sys2Proof
end

