-- ==== Sys2Proof/WellFormed.lean ====
section
/-! DEFINITION. What a well-formed command word and a defined register access are, as checks (Bool). A command itself
has no field that could be ill-formed (30_encoding.md R75); the checks are on what stands around it: the RSVD field and
the OPCODE of a word (R70, R73), and the width and the offset of a register access (10_state.md R21, R29). -/

namespace Sys2Proof

/-- A command has no operand field, no mode and no length: every one of the seven is well-formed
(30_encoding.md R75, R76). -/
def Instr.wf (_ : Instr) : Bool := true

/-- Bits 31:8 of a command word, RSVD, are zero (30_encoding.md R70: "must be zero"). -/
def reservedZero (w : Word) : Bool := w.extractLsb' 8 24 == 0

/-- The OPCODE values that select a command (30_encoding.md R72). -/
def legalOpcodes : List Nat := [0x01, 0x02, 0x03, 0x10, 0x20, 0x21, 0x30]

/-- Bits 7:0 of a command word select a command of the opcode map (30_encoding.md R72, R73). -/
def opcodeLegal (w : Word) : Bool := legalOpcodes.contains (w.extractLsb' 0 8).toNat

/-- A command word that selects a command (30_encoding.md R71). -/
def commandWordWf (w : Word) : Bool := reservedZero w && opcodeLegal w

/-- The width, in bits, of a register access the block accepts (10_state.md R29: "only 32-bit accesses"). -/
def accessWidthOk (width : Nat) : Bool := width == 32

/-- The offset of a register access is a multiple of 4 (10_state.md R29). -/
def offsetAligned (offset : Nat) : Bool := offset % 4 == 0

/-- The offset lies in the 64-byte register block (10_state.md R21). -/
def offsetInBlock (offset : Nat) : Bool := decide (offset < 64)

/-- A register access the spec gives a meaning to (10_state.md R21, R29). -/
def registerAccessWf (width offset : Nat) : Bool :=
  offsetInBlock offset && accessWidthOk width && offsetAligned offset

end Sys2Proof
end

