-- ==== Sys2Proof/Decode.lean ====
section
/-! DEFINITION. Decoding a command word and encoding a command (30_encoding.md R70 to R73, R76). Decoding is total on
32-bit words and rejects by name; the encoder is written from the opcode map on its own. -/

namespace Sys2Proof

/-- Why a word selects no command (30_encoding.md R71, R73); either way the engine's answer is IllegalCommand. -/
inductive DecodeError where
  /-- RSVD, bits 31:8, is not zero. -/
  | reservedBitsSet
  /-- OPCODE, bits 7:0, is not in the opcode map. -/
  | illegalOpcode
  deriving DecidableEq, Repr

/-- OPCODE, bits 7:0 (30_encoding.md R70). -/
def opcodeField (w : Word) : BitVec 8 := w.extractLsb' 0 8

/-- RSVD, bits 31:8 (30_encoding.md R70). -/
def reservedField (w : Word) : BitVec 24 := w.extractLsb' 8 24

/-- The opcode map (30_encoding.md R72, R73): every other value selects no command. -/
def decodeOpcode (op : BitVec 8) : Except DecodeError Instr :=
  match op.toNat with
  | 0x01 => .ok .shaInit
  | 0x02 => .ok .shaUpdate
  | 0x03 => .ok .shaFinal
  | 0x10 => .ok .hmac
  | 0x20 => .ok .cbcCipher
  | 0x21 => .ok .cbcDecipher
  | 0x30 => .ok .kdfDerive
  | _ => .error .illegalOpcode

/-- Decoding is a function of the whole 32-bit word (30_encoding.md R71). -/
def decode (w : Word) : Except DecodeError Instr :=
  if reservedField w = 0 then decodeOpcode (opcodeField w) else .error .reservedBitsSet

/-- The command word of a command (30_encoding.md R72, the column "command word"). -/
def encode : Instr → Word
  | .shaInit => 0x00000001
  | .shaUpdate => 0x00000002
  | .shaFinal => 0x00000003
  | .hmac => 0x00000010
  | .cbcCipher => 0x00000020
  | .cbcDecipher => 0x00000021
  | .kdfDerive => 0x00000030

/-- The 32-bit word written to CMD for a row's bits `w`, of which the table gives `nbits`; a command word is one 32-bit
register value, so there is no byte order between them (20_memory.md R55). Log 18. -/
def commandWordOfBits (nbits w : Nat) : Word := BitVec.ofNat 32 (w % 2 ^ nbits)

/-- The command the decoder reads from the bits `w` of an opcode-table row. -/
def decodeTableWord (nbits w : Nat) : Option Instr :=
  match decode (commandWordOfBits nbits w) with
  | .ok i => some i
  | .error _ => none

end Sys2Proof
end

