-- ==== Sys2Proof/Machine/State.lean ====
section
/-! DEFINITION. The state of the engine as plain data, with the host's list of accesses beside it, and the state after
reset (10_state.md; INVENTORY.md, State). -/

namespace Sys2Proof.Machine

/-- The result codes (60_exceptions.md R200). Values 5 to 15 "are never produced", so they have no constructor. -/
inductive Result where
  | success
  | invalidContext
  | invalidParameter
  | illegalCommand
  | busError
  deriving DecidableEq, Repr

/-- `UCTX.STATE` (10_state.md R30). Value 3 "is never produced", so it has no constructor (log 20). -/
inductive Phase where
  | uninit
  | active
  | finalized
  deriving DecidableEq, Repr

/-- `LEN_MODE`, the width of the SHA-256 length field (00_scope.md R10, 40_sha256.md R110). -/
inductive LenMode where
  | full64
  | legacy32
  deriving DecidableEq, Repr

/-- Eight 32-bit words: `H[0..7]` in this order, and the working variables `a` to `h` of a compression
(10_state.md R30, 40_sha256.md R103). -/
structure HashWords where
  a : Word
  b : Word
  c : Word
  d : Word
  e : Word
  f : Word
  g : Word
  h : Word
  deriving DecidableEq, Repr

/-- A hash context without its lifecycle state: the fields `H`, `BLK`, `PEND_LEN`, `COUNT` of 10_state.md R30. The user
context has one, and so has each private context (R35). -/
structure HashContext where
  /-- `H[0..7]`, the chaining value. -/
  words : HashWords
  /-- `BLK[0..63]`, the pending block. -/
  blk : Vector Byte 64
  /-- `PEND_LEN`, 7 bits: 64 to 127 are the corrupted values of R33. -/
  pendLen : Fin 128
  /-- `COUNT`, the bytes absorbed since SHA_INIT, 64 bits. -/
  count : BitVec 64
  deriving DecidableEq, Repr

/-- `UCTX`, the user hash context (10_state.md R30). -/
structure UserContext where
  phase : Phase
  ctx : HashContext
  deriving DecidableEq, Repr

/-- The operand memory `M` (20_memory.md R50): the bytes written since reset, by strictly rising address. -/
abbrev Memory := List Host.Cell

/-- What an address the list does not hold reads as: no value. The engine then reads a free value (20_memory.md R57,
log 6). -/
def Memory.unlisted : Option Byte := none

/-- The canonical form: addresses strictly rising, no entry equal to what an unlisted address reads as. -/
def Memory.wf (m : Memory) : Bool :=
  decide (List.Pairwise (fun x y : Host.Cell => x.1 < y.1) m) && m.all (fun c => some c.2 != Memory.unlisted)

/-- Where a host register access goes: an offset in the register block, as a script's encoding names it
(30_encoding.md R78), or an address of the host bus (10_state.md R21). -/
inductive Place where
  | reg (offset : Nat)
  | bus (address : Nat)
  deriving DecidableEq, Repr

/-- One entry of the host's program: an access of the host, a decision of the host, or the platform's reset
(10_state.md R24, 60_exceptions.md R218, 30_encoding.md R78, 70_reset_and_hazards.md R230). Widths are in bits. -/
inductive Access where
  /-- Write `value` to a register. -/
  | regWrite (place : Place) (width : Nat) (value : Word)
  /-- Read a register. -/
  | regRead (place : Place) (width : Nat)
  /-- Write bytes to `M` from `addr` upward. -/
  | memWrite (addr : Nat) (bytes : List Byte)
  /-- Read `len` bytes of `M` from `addr` upward. -/
  | memRead (addr len : Nat)
  /-- Read STATUS and go on at entry `target` of the script when RESULT is not Success. -/
  | branchIfFailed (target : Nat)
  /-- Go on at entry `target` of the script. -/
  | jump (target : Nat)
  /-- The platform resets the engine. -/
  | platformReset
  deriving DecidableEq, Repr

/-- What the host's last read returned (the model's own; log 12). -/
inductive ReadData where
  | none
  | register (value : Word)
  | memory (bytes : List Byte)
  deriving DecidableEq, Repr

/-- Why the machine stops with a fault: never. The engine raises no trap and no exception (60_exceptions.md R208), and
the one stop the spec has is a refusal (R219). -/
inductive Fault where
  deriving DecidableEq, Repr

/-- Why a step has no meaning. -/
inductive Refusal where
  /-- Raised by an arm of exec for a command without a meaning; no arm does. Safe. -/
  | notModelled (mnemonic : String)
  /-- Raised by a host register access that is not 32 bits wide (10_state.md R29: "a model refuses it"). Safe. -/
  | registerAccessWidth (width : Nat)
  /-- Raised by a host register access at an offset that is not a multiple of 4 (10_state.md R29). Safe. -/
  | registerAccessMisaligned (offset : Nat)
  /-- Raised by a host access on the bus that begins below `BASE` and covers some of the register block, so that it is
  wide or misaligned (10_state.md R29). Safe. -/
  | registerAccessFromBelow (address width : Nat)
  deriving DecidableEq, Repr

/-- The whole state. Fields marked "the model's own" are not the spec's. -/
structure State where
  /-- ARG0 to ARG3 (10_state.md R23). -/
  args : Vector Word 4
  /-- STATUS.RESULT (10_state.md R26). -/
  result : Result
  /-- The user hash context (10_state.md R30); its phase is STATUS.CTX_STATE (R27). -/
  uctx : UserContext
  /-- The operand memory (20_memory.md R50). -/
  mem : Memory
  /-- `MEM_SIZE`, a parameter of the platform that no step changes (00_scope.md R10; log 2). -/
  memSize : Nat
  /-- `LEN_MODE`, a parameter that no step changes (00_scope.md R10; log 5). -/
  lenMode : LenMode
  /-- `BASE` in units of 64 bytes, a parameter of the platform that no step changes (00_scope.md R10; log 3). -/
  baseBlock : Nat
  /-- The number of platform resets so far: selects the free power-on bytes (the model's own; log 6). -/
  resets : Nat
  /-- The number of free values drawn so far (the model's own; logs 3, 8, 10, 11). -/
  draws : Nat
  /-- The host's program (the model's own; 10_state.md R24, log 1). -/
  script : List Access
  /-- What of its program the host has still to do, the next entry first (the model's own; log 1). -/
  pending : List Access
  /-- What the host's last read returned (the model's own; log 12). -/
  readData : ReadData
  deriving DecidableEq, Repr

/-- The fields of a hash context at reset: 10_state.md R40 gives them no value; zero is the model's choice (log 7). -/
def HashContext.zero : HashContext where
  words := ⟨0, 0, 0, 0, 0, 0, 0, 0⟩
  blk := Vector.replicate 64 0
  pendLen := 0
  count := 0

/-- The machine right after reset (10_state.md R40, 70_reset_and_hazards.md R230), with no program placed. -/
def State.reset : State where
  args := Vector.replicate 4 0
  result := .success
  uctx := { phase := .uninit, ctx := HashContext.zero }
  mem := []
  memSize := Config.memSize
  lenMode := .full64
  baseBlock := Config.baseBlock
  resets := 0
  draws := 0
  script := []
  pending := []
  readData := .none

end Sys2Proof.Machine
end

