-- ==== Sys2Proof/Machine/Ops.lean ====
section
/-! DEFINITION. The named operations every command shares: reading and writing `M` (20_memory.md R51, R57), the region
test (R53), and the two ways a command ends (00_scope.md R16): with a failure code, which is the engine's whole
"exception" (60_exceptions.md R208: no trap entry, R210: no return), or with Success. -/

namespace Sys2Proof.Machine

/-- The outcome of a step of this machine. -/
abbrev StepOutcome := Host.Outcome State Fault Refusal

/-- The byte the list holds at an address, if it holds one. -/
def Memory.lookup (a : Nat) : Memory → Option Byte
  | [] => Memory.unlisted
  | (x, b) :: m => if a = x then some b else Memory.lookup a m

/-- Write one byte, keeping the canonical form. -/
def Memory.write (a : Nat) (b : Byte) : Memory → Memory
  | [] => [(a, b)]
  | (x, c) :: m =>
    if a < x then (a, b) :: (x, c) :: m
    else if a = x then (a, b) :: m
    else (x, c) :: Memory.write a b m

/-- Write a byte string, first byte at the lowest address (20_memory.md R51). -/
def Memory.writeBytes (a : Nat) : List Byte → Memory → Memory
  | [], m => m
  | b :: bs, m => Memory.writeBytes (a + 1) bs (Memory.write a b m)

/-- The byte of `M` at an address: the one written last, or, where nothing has been written since reset, a free value
(20_memory.md R57, R63; log 6). -/
def memByte (s : State) (a : Nat) : Byte :=
  (Memory.lookup a s.mem).getD (Config.powerOnByte s.resets a)

/-- `MemRead(a, n)` (20_memory.md R51). -/
def memRead (s : State) (a n : Nat) : List Byte := (List.range n).map fun i => memByte s (a + i)

/-- `MemWrite(a, |v|, v)` (20_memory.md R51). -/
def memWrite (a : Nat) (v : List Byte) (s : State) : State := { s with mem := Memory.writeBytes a v s.mem }

/-- `MemRead(a, 16)` as a block. -/
def readBlock (s : State) (a : Nat) : Block := Vector.ofFn fun i : Fin 16 => memByte s (a + i.val)

/-- `MemWrite(a, 16, v)` of a block. -/
def writeBlock (a : Nat) (v : Block) (s : State) : State := memWrite a v.toList s

/-- The region test `ValidRegion(p, n)` (20_memory.md R53, 00_scope.md R16), in unbounded numbers. -/
def validRegion (s : State) (p n : Nat) : Bool := n == 0 || (decide (1 ≤ p) && decide (p + n ≤ s.memSize))

/-- `raise <Result>()`: the command ends at once with the result code and no other effect (00_scope.md R16,
20_memory.md R60). -/
def raise (r : Result) (s : State) : StepOutcome := .next { s with result := r }

/-- `finish Success` (00_scope.md R16). -/
def finish (s : State) : StepOutcome := .next { s with result := .success }

/-- A hash context whose fields hold no defined value: the free values of the given draw (10_state.md R34; log 8). -/
def freeContext (draw : Nat) : HashContext where
  words :=
    ⟨Config.freeH draw 0, Config.freeH draw 1, Config.freeH draw 2, Config.freeH draw 3,
     Config.freeH draw 4, Config.freeH draw 5, Config.freeH draw 6, Config.freeH draw 7⟩
  blk := Vector.ofFn fun i => Config.freeBlk draw i.val
  pendLen := Config.freePendLen draw
  count := Config.freeCount draw

/-- The engine after a platform reset (10_state.md R40, 70_reset_and_hazards.md R230): the registers and `UCTX.STATE` at
their reset values, the context fields and `M` unspecified (fresh free values). The host's program, what it read, and
the platform's parameters are not the engine's and stay (log 11). -/
def resetEngine (s : State) : State :=
  { s with
    args := Vector.replicate 4 0
    result := .success
    uctx := { phase := .uninit, ctx := freeContext s.draws }
    mem := []
    resets := s.resets + 1
    draws := s.draws + 1 }

end Sys2Proof.Machine
end

