-- ==== Sys2Proof/Machine/Operands.lean ====
section
/-! DEFINITION. The operands of the commands (30_encoding.md R74, R75): the full 32-bit value of an ARG register, a
pointer used as a byte address with no scaling, a length as an unsigned count. -/

namespace Sys2Proof.Machine

/-- `ARG[i]` as an unsigned number (00_scope.md R16, 30_encoding.md R75). -/
def arg (s : State) (i : Fin 4) : Nat := s.args[i].toNat

/-- The null pointer (20_memory.md R52). -/
def isNull (p : Nat) : Bool := p == 0

/-- How many operands a command names, in ARG order (30_encoding.md R74, R77). -/
def operandCount : Instr → Nat
  | .shaInit => 0
  | .shaUpdate => 2
  | .shaFinal => 1
  | .hmac => 4
  | .cbcCipher => 4
  | .cbcDecipher => 4
  | .kdfDerive => 4

/-- The regions a command accesses, with their lengths (30_encoding.md R74, the last column). The RndA operand of
KDF_DERIVE names no region (43_kdf.md R181). -/
def regions : Instr → State → List (Nat × Nat)
  | .shaInit, _ => []
  | .shaUpdate, s => [(arg s 0, arg s 1)]
  | .shaFinal, s => [(arg s 0, 32)]
  | .hmac, s => [(arg s 0, 16), (arg s 1, arg s 2), (arg s 3, 32)]
  | .cbcCipher, s => [(arg s 0, 16), (arg s 1, 16), (arg s 2, arg s 3)]
  | .cbcDecipher, s => [(arg s 0, 16), (arg s 1, 16), (arg s 2, arg s 3)]
  | .kdfDerive, s => [(arg s 0, 16), (arg s 2, 16), (arg s 3, 64)]

/-- Every region the command will access is valid (20_memory.md R53: checked before the first access). -/
def regionsValid (i : Instr) (s : State) : Bool := (regions i s).all fun r => validRegion s r.1 r.2

end Sys2Proof.Machine
end

