-- ==== Sys2Proof/Machine/Cbc.lean ====
section
/-! DEFINITION. The CBC commands (42_cbc.md R160 to R164) around the external block cipher of 00_scope.md R12. -/

namespace Sys2Proof.Machine

/-- Byte-wise XOR of two blocks (00_scope.md R14). -/
def xorBlock (x y : Block) : Block := Vector.zipWith (· ^^^ ·) x y

/-- The loop of CBC_CIPHER over `n` blocks from address `a` (42_cbc.md R161): each block is read, then written, and its
ciphertext becomes the chain value. `enc` is `E(KEY, .)`. -/
def cbcEncryptLoop (enc : Block → Block) : Nat → Nat → Block → State → State
  | 0, _, _, s => s
  | n + 1, a, chain, s =>
    let c := enc (xorBlock (readBlock s a) chain)
    cbcEncryptLoop enc n (a + 16) c (writeBlock a c s)

/-- The loop of CBC_DECIPHER (42_cbc.md R162): the ciphertext is captured before the block is overwritten and becomes
the chain value. `dec` is `D(KEY, .)`. -/
def cbcDecryptLoop (dec : Block → Block) : Nat → Nat → Block → State → State
  | 0, _, _, s => s
  | n + 1, a, chain, s =>
    let c := readBlock s a
    cbcDecryptLoop dec n (a + 16) c (writeBlock a (xorBlock (dec c) chain) s)

/-- The checks the two CBC commands share, in their order (42_cbc.md R161, R162, R163): the failure, if any. -/
def cbcFailure (s : State) : Option Result :=
  if isNull (arg s 0) || isNull (arg s 1) || isNull (arg s 2) then some .invalidParameter
  else if arg s 3 % 16 != 0 then some .invalidParameter
  else if !(validRegion s (arg s 0) 16 && validRegion s (arg s 1) 16 && validRegion s (arg s 2) (arg s 3)) then
    some .busError
  else none

/-- CBC_CIPHER (42_cbc.md R161): ARG0 is `key`, ARG1 `iv`, ARG2 `buf`, ARG3 `len`. KEY and CHAIN are loaded before the
first write (20_memory.md R56) and end with the command (42_cbc.md R164). -/
def execCbcCipher (s : State) : StepOutcome :=
  match cbcFailure s with
  | some r => raise r s
  | none =>
    let key := readBlock s (arg s 0)
    finish (cbcEncryptLoop (Config.encrypt key) (arg s 3 / 16) (arg s 2) (readBlock s (arg s 1)) s)

/-- CBC_DECIPHER (42_cbc.md R162): operands as CBC_CIPHER. -/
def execCbcDecipher (s : State) : StepOutcome :=
  match cbcFailure s with
  | some r => raise r s
  | none =>
    let key := readBlock s (arg s 0)
    finish (cbcDecryptLoop (Config.decrypt key) (arg s 3 / 16) (arg s 2) (readBlock s (arg s 1)) s)

end Sys2Proof.Machine
end

