-- ==== Sys2Proof/Machine/Sha256.lean ====
section
/-! DEFINITION. SHA-256 (40_sha256.md R100 to R105, R110, R112): constants, functions, compression, absorbing, padding
and the digest, as pure functions on a hash context. -/

namespace Sys2Proof.Machine

/-- `SHA_IV[0..7]` (40_sha256.md R100). -/
def shaIV : HashWords :=
  ⟨0x6a09e667, 0xbb67ae85, 0x3c6ef372, 0xa54ff53a, 0x510e527f, 0x9b05688c, 0x1f83d9ab, 0x5be0cd19⟩

/-- `K[0..63]` (40_sha256.md R101), eight to a row. -/
def roundConstants : List Word :=
  [0x428a2f98, 0x71374491, 0xb5c0fbcf, 0xe9b5dba5, 0x3956c25b, 0x59f111f1, 0x923f82a4, 0xab1c5ed5] ++
  [0xd807aa98, 0x12835b01, 0x243185be, 0x550c7dc3, 0x72be5d74, 0x80deb1fe, 0x9bdc06a7, 0xc19bf174] ++
  [0xe49b69c1, 0xefbe4786, 0x0fc19dc6, 0x240ca1cc, 0x2de92c6f, 0x4a7484aa, 0x5cb0a9dc, 0x76f988da] ++
  [0x983e5152, 0xa831c66d, 0xb00327c8, 0xbf597fc7, 0xc6e00bf3, 0xd5a79147, 0x06ca6351, 0x14292967] ++
  [0x27b70a85, 0x2e1b2138, 0x4d2c6dfc, 0x53380d13, 0x650a7354, 0x766a0abb, 0x81c2c92e, 0x92722c85] ++
  [0xa2bfe8a1, 0xa81a664b, 0xc24b8b70, 0xc76c51a3, 0xd192e819, 0xd6990624, 0xf40e3585, 0x106aa070] ++
  [0x19a4c116, 0x1e376c08, 0x2748774c, 0x34b0bcb5, 0x391c0cb3, 0x4ed8aa4a, 0x5b9cca4f, 0x682e6ff3] ++
  [0x748f82ee, 0x78a5636f, 0x84c87814, 0x8cc70208, 0x90befffa, 0xa4506ceb, 0xbef9a3f7, 0xc67178f2]

/-- `ROTR(x, n)` (00_scope.md R15). -/
def rotr (x : Word) (n : Nat) : Word := x >>> n ||| x <<< (32 - n)

/-- `Σ0` (40_sha256.md R102). -/
def bigSigma0 (x : Word) : Word := rotr x 2 ^^^ rotr x 13 ^^^ rotr x 22

/-- `Σ1` (40_sha256.md R102). -/
def bigSigma1 (x : Word) : Word := rotr x 6 ^^^ rotr x 11 ^^^ rotr x 25

/-- `σ0` (40_sha256.md R102). -/
def smallSigma0 (x : Word) : Word := rotr x 7 ^^^ rotr x 18 ^^^ (x >>> 3)

/-- `σ1` (40_sha256.md R102). -/
def smallSigma1 (x : Word) : Word := rotr x 17 ^^^ rotr x 19 ^^^ (x >>> 10)

/-- `Ch` (40_sha256.md R102). -/
def ch (x y z : Word) : Word := (x &&& y) ^^^ (~~~x &&& z)

/-- `Maj` (40_sha256.md R102). -/
def maj (x y z : Word) : Word := (x &&& y) ^^^ (x &&& z) ^^^ (y &&& z)

/-- `BE32` of four bytes, the first the most significant (00_scope.md R15). -/
def wordOfBytes (b0 b1 b2 b3 : Byte) : Word := b0 ++ b1 ++ b2 ++ b3

/-- `be32(w)` (00_scope.md R15). -/
def be32 (w : Word) : List Byte :=
  [w.extractLsb' 24 8, w.extractLsb' 16 8, w.extractLsb' 8 8, w.extractLsb' 0 8]

/-- `be64(v)` (00_scope.md R15). -/
def be64 (v : BitVec 64) : List Byte :=
  [v.extractLsb' 56 8, v.extractLsb' 48 8, v.extractLsb' 40 8, v.extractLsb' 32 8,
   v.extractLsb' 24 8, v.extractLsb' 16 8, v.extractLsb' 8 8, v.extractLsb' 0 8]

/-- The words of a byte string, each from four bytes, big-endian (40_sha256.md R103, the first line of the loop). -/
def wordsOfBytes : List Byte → List Word
  | b0 :: b1 :: b2 :: b3 :: rest => wordOfBytes b0 b1 b2 b3 :: wordsOfBytes rest
  | _ => []

/-- `W[t]` from the words before it, the latest first: `σ1(W[t-2]) + W[t-7] + σ0(W[t-15]) + W[t-16]`
(40_sha256.md R103). -/
def nextScheduleWord (ws : List Word) : Word :=
  smallSigma1 (ws.getD 1 0) + ws.getD 6 0 + smallSigma0 (ws.getD 14 0) + ws.getD 15 0

/-- Add `n` schedule words to those computed so far, the latest first. -/
def extendSchedule : Nat → List Word → List Word
  | 0, ws => ws
  | n + 1, ws => extendSchedule n (nextScheduleWord ws :: ws)

/-- The message schedule `W[0..63]` of a block (40_sha256.md R103). -/
def messageSchedule (blk : Vector Byte 64) : List Word :=
  (extendSchedule 48 (wordsOfBytes blk.toList).reverse).reverse

/-- One round with its constant `K[t]` and its schedule word `W[t]` (40_sha256.md R103). -/
def roundStep (v : HashWords) (kw : Word × Word) : HashWords :=
  let t1 := v.h + bigSigma1 v.e + ch v.e v.f v.g + kw.1 + kw.2
  let t2 := bigSigma0 v.a + maj v.a v.b v.c
  ⟨t1 + t2, v.a, v.b, v.c, v.d + t1, v.e, v.f, v.g⟩

/-- Word by word addition modulo 2^32, the last line of a compression (40_sha256.md R103). -/
def addWords (x y : HashWords) : HashWords :=
  ⟨x.a + y.a, x.b + y.b, x.c + y.c, x.d + y.d, x.e + y.e, x.f + y.f, x.g + y.g, x.h + y.h⟩

/-- `Compress(H, B)` (40_sha256.md R103): 64 rounds, then the addition of the old state. Irreducible, so that no proof
runs 64 rounds on variables by accident; the kernel still evaluates it. -/
@[irreducible] def compress (h : HashWords) (blk : Vector Byte 64) : HashWords :=
  addWords h ((roundConstants.zip (messageSchedule blk)).foldl roundStep h)

/-- A context as SHA_INIT leaves it (40_sha256.md R105, R106). -/
def initContext : HashContext where
  words := shaIV
  blk := Vector.replicate 64 0
  pendLen := 0
  count := 0

/-- The body of the loop of `Absorb` (40_sha256.md R107): store one byte, compress when the block is full. `Absorb` is
only run with `PEND_LEN` below 64 (R111); on a corrupted value nothing is stored (log 14). -/
def absorbByte (ctx : HashContext) (b : Byte) : HashContext :=
  let blk := ctx.blk.setIfInBounds ctx.pendLen.val b
  let pend := ctx.pendLen + 1
  if pend = 64 then { ctx with words := compress ctx.words blk, blk := blk, pendLen := 0 }
  else { ctx with blk := blk, pendLen := pend }

/-- `Absorb(ctx, m)` (40_sha256.md R107). -/
def absorb (ctx : HashContext) (m : List Byte) : HashContext :=
  { m.foldl absorbByte ctx with count := ctx.count + BitVec.ofNat 64 m.length }

/-- `BLK[lo .. hi) <- zeros` (40_sha256.md R110). -/
def zeroRange (lo hi : Nat) (blk : Vector Byte 64) : Vector Byte 64 :=
  Vector.ofFn fun i => if lo ≤ i.val ∧ i.val < hi then 0 else blk[i]

/-- The value of the length field: the bit count, `8 * COUNT`, modulo 2^64 or, in LEGACY32, modulo 2^32
(40_sha256.md R110). -/
def bitLength (mode : LenMode) (count : BitVec 64) : BitVec 64 :=
  match mode with
  | .full64 => BitVec.ofNat 64 (8 * count.toNat % 2 ^ 64)
  | .legacy32 => BitVec.ofNat 64 (8 * count.toNat % 2 ^ 32)

/-- `BLK[56 .. 64) <- be64(L)` (40_sha256.md R110). -/
def putLength (l : BitVec 64) (blk : Vector Byte 64) : Vector Byte 64 :=
  Vector.ofFn fun i => if 56 ≤ i.val then (be64 l).getD (i.val - 56) 0 else blk[i]

/-- `DigestBytes(H)` (40_sha256.md R112). -/
def digestBytes (h : HashWords) : List Byte :=
  be32 h.a ++ be32 h.b ++ be32 h.c ++ be32 h.d ++ be32 h.e ++ be32 h.f ++ be32 h.g ++ be32 h.h

/-- The chaining value and the block before the length field is put in: the 0x80 byte, the zeros, and the extra
compression exactly when `PEND_LEN >= 56` (40_sha256.md R110, 90_conflicts.md C1). `Finalize` requires `PEND_LEN <= 63`;
that the function is total, and on 64 to 127, reached by no command (R111), stores no 0x80 byte and takes the extra
compression, is the model's choice (log 14). -/
def padBlock (ctx : HashContext) : HashWords × Vector Byte 64 :=
  let n := ctx.pendLen.val
  let marked := ctx.blk.setIfInBounds n 0x80
  if n ≤ 55 then (ctx.words, zeroRange (n + 1) 56 marked)
  else
    let full := zeroRange (n + 1) 64 marked
    (compress ctx.words full, zeroRange 0 56 full)

/-- `Finalize(ctx)` (40_sha256.md R110): the digest. -/
def finalizeDigest (mode : LenMode) (ctx : HashContext) : List Byte :=
  let p := padBlock ctx
  digestBytes (compress p.1 (putLength (bitLength mode ctx.count) p.2))

/-- `Sha256(m)`, on a private context (40_sha256.md R105, 10_state.md R35). -/
def sha256 (mode : LenMode) (m : List Byte) : List Byte := finalizeDigest mode (absorb initContext m)

/-- `MAX_MSG_BYTES` (00_scope.md R10, 40_sha256.md R108). -/
def maxMsgBytes : Nat := 2 ^ 61 - 1

end Sys2Proof.Machine
end

