-- ==== Sys2Proof/Machine/Hmac.lean ====
section
/-! DEFINITION. The HMAC command (41_hmac.md R140, R141, R143), on two private contexts (10_state.md R35). -/

namespace Sys2Proof.Machine

/-- A 64-byte pad: the key, XORed with the pad byte, then 48 pad bytes (41_hmac.md R140). -/
def hmacPad (byte : Byte) (key : List Byte) : List Byte := key.map (· ^^^ byte) ++ List.replicate 48 byte

/-- `ipad(K)` (41_hmac.md R140). -/
def innerPad (key : List Byte) : List Byte := hmacPad 0x36 key

/-- `opad(K)` (41_hmac.md R140). -/
def outerPad (key : List Byte) : List Byte := hmacPad 0x5c key

/-- `HmacSha256(K, m)` (41_hmac.md R140). -/
def hmacSha256 (mode : LenMode) (key m : List Byte) : List Byte :=
  sha256 mode (outerPad key ++ sha256 mode (innerPad key ++ m))

/-- HMAC (41_hmac.md R141): ARG0 is `key`, ARG1 `msg`, ARG2 `len`, ARG3 `mac`. Key and message are read before the MAC
is written (20_memory.md R56). -/
def execHmac (s : State) : StepOutcome :=
  let key := arg s 0
  let msg := arg s 1
  let len := arg s 2
  let mac := arg s 3
  if isNull key then raise .invalidParameter s
  else if isNull msg && decide (0 < len) then raise .invalidParameter s
  else if isNull mac then raise .invalidParameter s
  else if !(validRegion s key 16 && validRegion s msg len && validRegion s mac 32) then raise .busError s
  else finish (memWrite mac (hmacSha256 s.lenMode (memRead s key 16) (memRead s msg len)) s)

end Sys2Proof.Machine
end

