-- ==== Sys2Proof/Machine/Kdf.lean ====
section
/-! DEFINITION. The KDF_DERIVE command (43_kdf.md R180 to R185). -/

namespace Sys2Proof.Machine

/-- `KDF_TAG1` (43_kdf.md R180). -/
def kdfTag1 : List Byte := [0x02, 0x6A, 0x53, 0x82, 0xE6, 0x53]

/-- `KDF_TAG2` (43_kdf.md R180). -/
def kdfTag2 : List Byte := [0x02, 0x6A]

/-- `CTR1` (43_kdf.md R180). -/
def kdfCtr1 : List Byte := [0x00, 0x00, 0x00, 0x00]

/-- `CTR2` (43_kdf.md R180). -/
def kdfCtr2 : List Byte := [0x00, 0x00, 0x00, 0x01]

/-- `W = E(K', R)` with `K' = E(A, A)`, steps 1 and 2 (43_kdf.md R182). -/
def kdfRekeyed (enc : Block → Block → Block) (authKey rndB : Block) : Block := enc (enc authKey authKey) rndB

/-- `T`, the 64 bytes of session key material, steps 3 to 5 (43_kdf.md R182, R183). -/
def kdfMaterial (enc : Block → Block → Block) (mode : LenMode) (authKey rndB : Block) : List Byte :=
  let w := (kdfRekeyed enc authKey rndB).toList
  sha256 mode (kdfCtr1 ++ w ++ kdfTag1) ++ sha256 mode (kdfCtr2 ++ w ++ kdfTag2)

/-- KDF_DERIVE (43_kdf.md R182): ARG0 is `authKey`, ARG1 `rndA`, ARG2 `rndB`, ARG3 `out`. RndA is checked against null
and never read (R181); both inputs are read before the output is written (20_memory.md R56). -/
def execKdfDerive (s : State) : StepOutcome :=
  let ak := arg s 0
  let ra := arg s 1
  let rb := arg s 2
  let out := arg s 3
  if isNull ak || isNull ra || isNull rb then raise .invalidParameter s
  else if isNull out then raise .invalidParameter s
  else if !(validRegion s ak 16 && validRegion s rb 16 && validRegion s out 64) then raise .busError s
  else finish (memWrite out (kdfMaterial Config.encrypt s.lenMode (readBlock s ak) (readBlock s rb)) s)

end Sys2Proof.Machine
end

