-- ==== Sys2Proof/Machine/ShaCommands.lean ====
section
/-! DEFINITION. The streaming commands SHA_INIT, SHA_UPDATE and SHA_FINAL on the user context (40_sha256.md R104, R106 to
R111). Checks come in the order of 60_exceptions.md R207. -/

namespace Sys2Proof.Machine

/-- The context is ACTIVE (40_sha256.md R104). -/
def isActive (s : State) : Bool := s.uctx.phase == .active

/-- The guard: `PEND_LEN` corrupted to the block size or beyond (40_sha256.md R111). -/
def guardTaken (s : State) : Bool := decide (64 ≤ s.uctx.ctx.pendLen.val)

/-- SHA_INIT (40_sha256.md R106): allowed in every state. -/
def execShaInit (s : State) : StepOutcome :=
  finish { s with uctx := { phase := .active, ctx := initContext } }

/-- SHA_UPDATE (40_sha256.md R107, R108, R111): ARG0 is `data`, ARG1 is `len`. -/
def execShaUpdate (s : State) : StepOutcome :=
  let data := arg s 0
  let len := arg s 1
  if !isActive s then raise .invalidContext s
  else if decide (0 < len) && isNull data then raise .invalidParameter s
  else if decide (maxMsgBytes < s.uctx.ctx.count.toNat + len) then raise .invalidParameter s
  else if !validRegion s data len then raise .busError s
  else if guardTaken s then finish s
  else finish { s with uctx := { s.uctx with ctx := absorb s.uctx.ctx (memRead s data len) } }

/-- SHA_FINAL (40_sha256.md R109, R110, R111): ARG0 is `digest`. After the digest the context fields hold no defined
value (10_state.md R34): they take the free values of a fresh draw (log 8). -/
def execShaFinal (s : State) : StepOutcome :=
  let digest := arg s 0
  if !isActive s then raise .invalidContext s
  else if isNull digest then raise .invalidParameter s
  else if !validRegion s digest 32 then raise .busError s
  else if guardTaken s then finish s
  else
    let t := memWrite digest (finalizeDigest s.lenMode s.uctx.ctx) s
    finish { t with uctx := { phase := .finalized, ctx := freeContext s.draws }, draws := s.draws + 1 }

end Sys2Proof.Machine
end

