-- ==== Sys2Proof/Machine/Dispatch.lean ====
section
/-! DEFINITION. exec: one arm per command, each a direct call of its meaning. -/

namespace Sys2Proof.Machine

def exec (i : Instr) (s : State) : Host.Outcome State Fault Refusal :=
  match i with
  | .shaInit => Sys2Proof.Machine.execShaInit s
  | .shaUpdate => Sys2Proof.Machine.execShaUpdate s
  | .shaFinal => Sys2Proof.Machine.execShaFinal s
  | .hmac => Sys2Proof.Machine.execHmac s
  | .cbcCipher => Sys2Proof.Machine.execCbcCipher s
  | .cbcDecipher => Sys2Proof.Machine.execCbcDecipher s
  | .kdfDerive => Sys2Proof.Machine.execKdfDerive s

end Sys2Proof.Machine
end

