-- ==== Sys2Proof/Machine/Flags.lean ====
section
/-! DEFINITION. The STATUS register (10_state.md R25 to R27, R39): the engine's only flags are RESULT and CTX_STATE. -/

namespace Sys2Proof.Machine

/-- The numeric value of a result code in STATUS.RESULT (60_exceptions.md R200). -/
def resultCode : Result → BitVec 4
  | .success => 0
  | .invalidContext => 1
  | .invalidParameter => 2
  | .illegalCommand => 3
  | .busError => 4

/-- The numeric value of `UCTX.STATE` in STATUS.CTX_STATE (10_state.md R25, R30). -/
def phaseCode : Phase → BitVec 2
  | .uninit => 0
  | .active => 1
  | .finalized => 2

/-- STATUS as the host reads it: bits 31:6 zero, CTX_STATE in 5:4, RESULT in 3:0 (10_state.md R25). -/
def statusWord (s : State) : Word :=
  (phaseCode s.uctx.phase).zeroExtend 32 <<< 4 ||| (resultCode s.result).zeroExtend 32

/-- STATUS.RESULT of a STATUS value, bits 3:0, as the host's branch reads it (30_encoding.md R77). -/
def statusResult (w : Word) : BitVec 4 := w.extractLsb' 0 4

end Sys2Proof.Machine
end

