-- ==== Sys2Proof/Machine/HostPort.lean ====
section
/-! DEFINITION. What each entry of the host's list does (10_state.md R21 to R29, 60_exceptions.md R218, 30_encoding.md
R77, R78, 70_reset_and_hazards.md R230). The register block is the engine's only port (60_exceptions.md R214). -/

namespace Sys2Proof.Machine

/-- `BASE`, the host-bus address of the register block, "64-byte aligned" (00_scope.md R10, 10_state.md R21). -/
abbrev busBase (s : State) : Nat := 64 * s.baseBlock

/-- The offset a place has in the register block, if it is in the block (10_state.md R21; log 3). -/
def placeOffset (s : State) (place : Place) : Option Nat :=
  match place with
  | .reg o => if offsetInBlock o then some o else none
  | .bus a => if busBase s ≤ a ∧ a < busBase s + 64 then some (a - busBase s) else none

/-- An access of `width` bits on the bus begins below the block and covers some of it (10_state.md R21). No 32-bit access
at a multiple of 4 does, since `BASE` is 64-byte aligned. -/
def reachesFromBelow (s : State) (place : Place) (width : Nat) : Bool :=
  match place with
  | .reg _ => false
  | .bus a => decide (a < busBase s ∧ 8 * busBase s < 8 * a + width)

/-- Why the block refuses an access, if it does: of those that cover any of the block, only 32-bit accesses at multiples
of 4 have a meaning (10_state.md R29, 60_exceptions.md R218). Which of the names is reported is the model's choice, and
that an access from below is one to the block is deduced (log 9). -/
def accessRefusal (s : State) (place : Place) (width : Nat) : Option Refusal :=
  match placeOffset s place with
  | some o =>
    if !accessWidthOk width then some (.registerAccessWidth width)
    else if !offsetAligned o then some (.registerAccessMisaligned o)
    else none
  | none =>
    match place with
    | .reg _ => none
    | .bus a => if reachesFromBelow s place width then some (.registerAccessFromBelow a width) else none

/-- A write of CMD runs the command to completion (10_state.md R22); a word that selects no command ends with
IllegalCommand (30_encoding.md R71, 60_exceptions.md R201). -/
def writeCommand (w : Word) (s : State) : StepOutcome :=
  match decode w with
  | .ok i => exec i s
  | .error _ => raise .illegalCommand s

/-- A 32-bit write to an offset of the register map (10_state.md R21): STATUS and the reserved offsets ignore it
(R25, R28). -/
def writeRegister (offset : Nat) (w : Word) (s : State) : StepOutcome :=
  match offset with
  | 0x00 => writeCommand w s
  | 0x08 => .next { s with args := s.args.set 0 w }
  | 0x0C => .next { s with args := s.args.set 1 w }
  | 0x10 => .next { s with args := s.args.set 2 w }
  | 0x14 => .next { s with args := s.args.set 3 w }
  | _ => .next s

/-- What a 32-bit read of an offset of the register map returns (10_state.md R21): CMD and the reserved offsets read as
zero (R22, R28). -/
def readRegister (offset : Nat) (s : State) : Word :=
  match offset with
  | 0x04 => statusWord s
  | 0x08 => s.args[0]
  | 0x0C => s.args[1]
  | 0x10 => s.args[2]
  | 0x14 => s.args[3]
  | _ => 0

/-- A host write to a place of the host bus. One that covers nothing of the block is no access to this engine and changes
nothing of it (10_state.md R21, 60_exceptions.md R214; log 3). Where `M` sits in the host's address map is the platform's
choice (20_memory.md R61): that such a write never lands in `M` is the model's (log 3). -/
def hostRegWrite (place : Place) (width : Nat) (w : Word) (s : State) : StepOutcome :=
  match accessRefusal s place width with
  | some r => .refused r
  | none =>
    match placeOffset s place with
    | some o => writeRegister o w s
    | none => .next s

/-- A host read of a place of the host bus. One that covers nothing of the block returns a free value of a fresh draw, and
no byte of `M`, wherever the platform puts `M` (20_memory.md R61): the model's choice (log 3). -/
def hostRegRead (place : Place) (width : Nat) (s : State) : StepOutcome :=
  match accessRefusal s place width with
  | some r => .refused r
  | none =>
    match placeOffset s place with
    | some o => .next { s with readData := .register (readRegister o s) }
    | none => .next { s with readData := .register (Config.elsewhereWord s.draws), draws := s.draws + 1 }

/-- A host write of bytes from an address upward, byte by byte (20_memory.md R51): the bytes of `M` take their values,
and what lies at or above `MEM_SIZE` is no byte of `M` (R50; log 10). The host may use address 0 (log 21). -/
def hostMemWrite (a : Nat) (bytes : List Byte) (s : State) : State := memWrite a (bytes.take (s.memSize - a)) s

/-- The byte a host read of an address returns: the byte of `M`, or a free value where there is none (log 10). -/
def hostByte (s : State) (x : Nat) : Byte := if x < s.memSize then memByte s x else Config.elsewhereByte s.draws x

/-- A host read of `n` bytes from an address upward. Every read takes a draw, used or not. -/
def hostMemRead (a n : Nat) (s : State) : State :=
  { s with readData := .memory ((List.range n).map fun i => hostByte s (a + i)), draws := s.draws + 1 }

/-- Perform one entry of the host's list (10_state.md R24, 60_exceptions.md R218). -/
def hostAccess (x : Access) (s : State) : StepOutcome :=
  match x with
  | .regWrite place width w => hostRegWrite place width w s
  | .regRead place width => hostRegRead place width s
  | .memWrite a bytes => .next (hostMemWrite a bytes s)
  | .memRead a n => .next (hostMemRead a n s)
  | .branchIfFailed t =>
    .next { s with
      readData := .register (statusWord s)
      pending := if statusResult (statusWord s) = 0 then s.pending else s.script.drop t }
  | .jump t => .next { s with pending := s.script.drop t }
  | .platformReset => .next (resetEngine s)

/-- Take the next entry off the host's list and perform it; with nothing to do the engine waits, unchanged
(60_exceptions.md R217, 70_reset_and_hazards.md R231, R249; log 1). -/
def hostStep (s : State) : StepOutcome :=
  match s.pending with
  | [] => .next s
  | x :: rest => hostAccess x { s with pending := rest }

/-- The host's write of a command word to CMD (10_state.md R22). -/
def commandWrite (w : Word) : Access := .regWrite (.reg 0x00) 32 w

end Sys2Proof.Machine
end

