-- ==== Sys2Proof/Machine/Step.lean ====
section
/-! DEFINITION. One step: the next entry of the host's list (10_state.md R20, R24); a command is one step (00_scope.md
R17). -/

namespace Sys2Proof.Machine

/-- One step of the machine. -/
def step (s : State) : Host.Outcome State Fault Refusal := hostStep s

/-- The state whose very next step runs the command word with the bits `w`: the write of that word to CMD stands first
in the host's list (log 1, log 18). -/
def State.withFetchWord (s : State) (nbits w : Nat) : State :=
  { s with pending := commandWrite (commandWordOfBits nbits w) :: s.pending }

end Sys2Proof.Machine
end

