-- ==== Sys2Proof/Machine/Script.lean ====
section
/-! DEFINITION. The host command script (30_encoding.md R77 to R79) as abstract syntax, and its assembly to the list of
host accesses the machine steps through (R78, 10_state.md R24). The text form is notation only (log 13). -/

namespace Sys2Proof.Machine

/-- A name of a label (R77). -/
abbrev Label := Nat

/-- "each operand is a number ... or a label bound to an address" (30_encoding.md R77). -/
inductive Operand where
  | num (value : Word)
  | sym (name : Label)
  deriving DecidableEq, Repr

/-- A statement of the script (30_encoding.md R77, R79). -/
inductive Stmt where
  /-- A command statement with its operands in ARG order. -/
  | command (i : Instr) (operands : List Operand)
  /-- `mem[a] <- hh hh ...`. -/
  | mem (addr : Nat) (bytes : List Byte)
  /-- `ARGi <- v`. -/
  | setArg (i : Fin 4) (value : Word)
  /-- `CMD <- w`. -/
  | setCmd (w : Word)
  /-- `if RESULT != Success goto L`. -/
  | ifFailed (l : Label)
  /-- `goto L`. -/
  | goto (l : Label)
  /-- `L:`. -/
  | label (l : Label)
  /-- The pseudo-instruction `SHA256 data, len, digest`. -/
  | sha256 (data len digest : Operand)
  /-- The pseudo-instruction `NOP`. -/
  | nop
  deriving DecidableEq, Repr

/-- The expansion of the pseudo-instructions (30_encoding.md R79). -/
def expandStmt : Stmt → List Stmt
  | .sha256 data len digest =>
    [.command .shaInit [], .command .shaUpdate [data, len], .command .shaFinal [digest]]
  | .nop => []
  | x => [x]

/-- The value of an operand under the bindings of labels to addresses. Where a label is bound twice the first binding
counts: the spec is silent and this is the model's choice (log 13). -/
def operandValue (binds : List (Label × Word)) : Operand → Option Word
  | .num v => some v
  | .sym l => binds.lookup l

/-- The offset of ARGi (10_state.md R21, 30_encoding.md R78). -/
def argOffset (i : Nat) : Nat := 0x08 + 4 * i

/-- The writes of the operands, ARG0 first (30_encoding.md R78). -/
def argWrites : Nat → List Word → List Access
  | _, [] => []
  | i, v :: vs => .regWrite (.reg (argOffset i)) 32 v :: argWrites (i + 1) vs

/-- How many accesses a statement without pseudo-instructions assembles to (30_encoding.md R78). -/
def stmtSize : Stmt → Nat
  | .command i _ => operandCount i + 1
  | .label _ => 0
  | .sha256 _ _ _ => 0
  | .nop => 0
  | .mem _ _ => 1
  | .setArg _ _ => 1
  | .setCmd _ => 1
  | .ifFailed _ => 1
  | .goto _ => 1

/-- The place in the access list that a label names: the next statement, or the end (30_encoding.md R77). Where
a script defines a label twice the first place counts: the spec is silent and this is the model's choice (log 13). -/
def labelTarget (l : Label) : Nat → List Stmt → Option Nat
  | _, [] => none
  | at_, x :: rest => if x = .label l then some at_ else labelTarget l (at_ + stmtSize x) rest

/-- The accesses of one statement without pseudo-instructions; none for a wrong number of operands or an unbound label
(30_encoding.md R77, R78). -/
def assembleStmt (binds : List (Label × Word)) (whole : List Stmt) : Stmt → Option (List Access)
  | .command i ops => do
    let vs ← ops.mapM (operandValue binds)
    if vs.length = operandCount i then some (argWrites 0 vs ++ [commandWrite (encode i)]) else none
  | .mem a bytes => some [.memWrite a bytes]
  | .setArg i v => some [.regWrite (.reg (argOffset i.val)) 32 v]
  | .setCmd w => some [commandWrite w]
  | .ifFailed l => do
    let t ← labelTarget l 0 whole
    some [.branchIfFailed t]
  | .goto l => do
    let t ← labelTarget l 0 whole
    some [.jump t]
  | .label _ => some []
  | .sha256 _ _ _ => none
  | .nop => some []

/-- The list of host accesses of a script (30_encoding.md R78, R79). -/
def assemble (binds : List (Label × Word)) (script : List Stmt) : Option (List Access) := do
  let whole := script.flatMap expandStmt
  let parts ← whole.mapM (assembleStmt binds whole)
  some parts.flatten

/-- The state with a program placed: the host has the whole list still to do (10_state.md R24; log 1). -/
def loadProgram (program : List Access) (s : State) : State := { s with script := program, pending := program }

end Sys2Proof.Machine
end

