-- ==== Sys2Proof/Safety.lean ====
section
/-! DEFINITION. What claims about runs are stated in: a step that goes on, the invariant of the reachable states
(10_state.md R32, R33), when a command executes normally (60_exceptions.md R207, item 6), and where it stores. -/

namespace Sys2Proof.Machine

/-- The step from `s` goes on (neither a fault nor a refusal). -/
def GoesOn (s : State) : Prop := ∃ t, step s = .next t

/-- The region test of 20_memory.md R53 as a proposition, in the spec's words. -/
abbrev RegionValid (memSize p n : Nat) : Prop := n = 0 ∨ (1 ≤ p ∧ p + n ≤ memSize)

/-- The conditions under which a command executes normally and ends with Success (60_exceptions.md R207, item 6: no
earlier item of the list applies). -/
abbrev Ready : Instr → State → Prop
  | .shaInit, _ => True
  | .shaUpdate, s =>
    s.uctx.phase = .active ∧ (arg s 1 = 0 ∨ arg s 0 ≠ 0) ∧ s.uctx.ctx.count.toNat + arg s 1 ≤ 2 ^ 61 - 1 ∧
    RegionValid s.memSize (arg s 0) (arg s 1) ∧ s.uctx.ctx.pendLen.val < 64
  | .shaFinal, s =>
    s.uctx.phase = .active ∧ arg s 0 ≠ 0 ∧ RegionValid s.memSize (arg s 0) 32 ∧ s.uctx.ctx.pendLen.val < 64
  | .hmac, s =>
    arg s 0 ≠ 0 ∧ (arg s 1 ≠ 0 ∨ arg s 2 = 0) ∧ arg s 3 ≠ 0 ∧ RegionValid s.memSize (arg s 0) 16 ∧
    RegionValid s.memSize (arg s 1) (arg s 2) ∧ RegionValid s.memSize (arg s 3) 32
  | .cbcCipher, s =>
    arg s 0 ≠ 0 ∧ arg s 1 ≠ 0 ∧ arg s 2 ≠ 0 ∧ arg s 3 % 16 = 0 ∧ RegionValid s.memSize (arg s 0) 16 ∧
    RegionValid s.memSize (arg s 1) 16 ∧ RegionValid s.memSize (arg s 2) (arg s 3)
  | .cbcDecipher, s =>
    arg s 0 ≠ 0 ∧ arg s 1 ≠ 0 ∧ arg s 2 ≠ 0 ∧ arg s 3 % 16 = 0 ∧ RegionValid s.memSize (arg s 0) 16 ∧
    RegionValid s.memSize (arg s 1) 16 ∧ RegionValid s.memSize (arg s 2) (arg s 3)
  | .kdfDerive, s =>
    arg s 0 ≠ 0 ∧ arg s 1 ≠ 0 ∧ arg s 2 ≠ 0 ∧ arg s 3 ≠ 0 ∧ RegionValid s.memSize (arg s 0) 16 ∧
    RegionValid s.memSize (arg s 2) 16 ∧ RegionValid s.memSize (arg s 3) 64

/-- The region a command stores to when it is Ready (30_encoding.md R74, the last column); length 0 for a command that
stores nothing. -/
def storedRegion : Instr → State → Nat × Nat
  | .shaInit, _ => (0, 0)
  | .shaUpdate, _ => (0, 0)
  | .shaFinal, s => (arg s 0, 32)
  | .hmac, s => (arg s 3, 32)
  | .cbcCipher, s => (arg s 2, arg s 3)
  | .cbcDecipher, s => (arg s 2, arg s 3)
  | .kdfDerive, s => (arg s 3, 64)

/-- The address lies in the region. -/
abbrev InRegion (a : Nat) (r : Nat × Nat) : Prop := r.1 ≤ a ∧ a < r.1 + r.2

/-- The regions a command reads (30_encoding.md R74, 20_memory.md R56). -/
def readRegions : Instr → State → List (Nat × Nat)
  | .shaInit, _ => []
  | .shaUpdate, s => [(arg s 0, arg s 1)]
  | .shaFinal, _ => []
  | .hmac, s => [(arg s 0, 16), (arg s 1, arg s 2)]
  | .cbcCipher, s => [(arg s 0, 16), (arg s 1, 16), (arg s 2, arg s 3)]
  | .cbcDecipher, s => [(arg s 0, 16), (arg s 1, 16), (arg s 2, arg s 3)]
  | .kdfDerive, s => [(arg s 0, 16), (arg s 2, 16)]

/-- Block `j` of a byte string, for `j` below its number of full 64-byte blocks. -/
def fullBlock (m : List Byte) (j : Nat) : Vector Byte 64 := Vector.ofFn fun i => m.getD (64 * j + i.val) 0

/-- The chaining value after compressing the first `64 * floor(|m| / 64)` bytes of `m` (10_state.md R32). -/
def chainingValue (m : List Byte) : HashWords :=
  (List.range (m.length / 64)).foldl (fun h j => compress h (fullBlock m j)) shaIV

/-- The message with the standard padding: the 0x80 byte, zeros up to 56 modulo 64, and the 64-bit big-endian bit count
(40_sha256.md R110). -/
def paddedMessage (m : List Byte) : List Byte :=
  m ++ [0x80] ++ List.replicate ((119 - m.length % 64) % 64) 0 ++ be64 (BitVec.ofNat 64 (8 * m.length))

/-- What a sequence of SHA_UPDATE commands, each ending with Success, absorbs into the user context. Between two of them
the host and other commands may do anything that leaves the user context alone (70_reset_and_hazards.md R244): each
command runs from any state with the context the one before left. -/
inductive Absorbs : UserContext → List Byte → UserContext → Prop
  | none (u : UserContext) : Absorbs u [] u
  | update {u u' : UserContext} {m : List Byte} {s t : State} (before : Absorbs u m u') (same : s.uctx = u')
      (runs : exec .shaUpdate s = .next t) (ok : t.result = .success) :
      Absorbs u (m ++ memRead s (arg s 0) (arg s 1)) t.uctx

/-- The user context, when ACTIVE, is the context some message of admissible length leaves (10_state.md R32). -/
def ContextReached (u : UserContext) : Prop :=
  u.phase = .active → ∃ m : List Byte, m.length ≤ 2 ^ 61 - 1 ∧ u.ctx = absorb initContext m

/-- The invariant of the machine: the memory is in its canonical form and inside `M` (20_memory.md R50), `MEM_SIZE` is
inside its bounds (00_scope.md R10), and the user context is one that SHA commands reach (10_state.md R32). -/
structure State.Inv (s : State) : Prop where
  memCanonical : Memory.wf s.mem = true
  memInside : ∀ c ∈ s.mem, c.1 < s.memSize
  memSizeBounds : 2 ≤ s.memSize ∧ s.memSize ≤ 2 ^ 32
  contextReached : ContextReached s.uctx

end Sys2Proof.Machine
end

