-- ==== Sys2Proof/Certificates/Slice0/Obligations.lean ====
section
/-! DEFINITION. The statements about the engine, for the provers. -/

open Sys2Proof Sys2Proof.Machine

/-! ### Encoding (30_encoding.md) -/

/-- R72, R73: the seven command words of the opcode map, written out, decode to their commands and are what the encoder
gives; the OPCODE values next to them and a word with a RSVD bit set decode to none, by name. -/
def Obligations.OpcodeMapWords : Prop :=
  (decode 0x00000001 = .ok .shaInit ∧ decode 0x00000002 = .ok .shaUpdate ∧ decode 0x00000003 = .ok .shaFinal ∧
    decode 0x00000010 = .ok .hmac ∧ decode 0x00000020 = .ok .cbcCipher ∧ decode 0x00000021 = .ok .cbcDecipher ∧
    decode 0x00000030 = .ok .kdfDerive) ∧
  (decode 0x00000000 = .error .illegalOpcode ∧ decode 0x00000004 = .error .illegalOpcode ∧
    decode 0x00000031 = .error .illegalOpcode ∧ decode 0x00000101 = .error .reservedBitsSet) ∧
  (∀ i : Instr, decode (encode i) = .ok i)

/-- R71, R201: over all 2^32 words, a word selects a command exactly when it is that command's word; writing any other
word to CMD sets RESULT to IllegalCommand and changes nothing else. -/
def Obligations.DecodingIsWholeWordMatch : Prop :=
  (∀ (w : Word) (i : Instr), decode w = .ok i ↔ w = encode i) ∧
  (∀ (w : Word) (s : State), (∀ i : Instr, w ≠ encode i) →
    writeCommand w s = .next { s with result := .illegalCommand })

/-- R70, R71, R73: a word selects some command exactly when RSVD is zero and OPCODE is in the opcode map. -/
def Obligations.LegalWordsAreTheWellFormedOnes : Prop :=
  ∀ w : Word, (∃ i : Instr, decode w = .ok i) ↔ commandWordWf w = true

/-! ### The step and the register block (10_state.md) -/

/-- R22, R71, R201: when the host's next access is a 32-bit write of a word to CMD, by its offset or by its bus address,
the step is that write's effect with the access done: for a word that decodes to `i` it is the command `i`, and for any
other word RESULT is IllegalCommand and nothing else changes. `withFetchWord` (the model's own, logs 1 and 18) places
exactly such a write. -/
def Obligations.StepRunsDecodedCommand : Prop :=
  (∀ (s : State) (place : Place) (w : Word) (rest : List Access),
    s.pending = .regWrite place 32 w :: rest → placeOffset s place = some 0x00 →
    step s = writeCommand w { s with pending := rest } ∧
    (∀ i, decode w = .ok i → step s = exec i { s with pending := rest }) ∧
    (∀ e, decode w = .error e → step s = .next { s with pending := rest, result := .illegalCommand })) ∧
  (∀ (s : State) (w : Word), step (s.withFetchWord 32 w.toNat) = writeCommand w s) ∧
  (∀ (s : State) (w : Word) (i : Instr), decode w = .ok i → step (s.withFetchWord 32 w.toNat) = exec i s)

/-- R217, R231 (log 1): with nothing to do the engine waits and keeps its state. -/
def Obligations.IdleEngineKeepsState : Prop :=
  ∀ s : State, s.pending = [] → step s = .next s

/-- R23, R21: a 32-bit write to ARGi, by its offset or by its bus address, stores the value there and nothing else, and
a read gives it back (in `readData`, the model's own field, log 12). -/
def Obligations.ArgRegistersStoreAndReadBack : Prop :=
  ∀ (s : State) (place : Place) (i : Fin 4) (v : Word) (rest : List Access),
    placeOffset s place = some (0x08 + 4 * i.val) →
    (s.pending = .regWrite place 32 v :: rest →
      step s = .next { s with pending := rest, args := s.args.set i v }) ∧
    (s.pending = .regRead place 32 :: rest →
      step s = .next { s with pending := rest, readData := .register s.args[i] })

/-- R28: the reserved offsets 0x18 to 0x3C, named as offsets or by their bus addresses, read as zero and ignore writes,
with no side effect (what a read returns stands in `readData`, log 12). -/
def Obligations.ReservedOffsetsReadZeroIgnoreWrites : Prop :=
  ∀ (s : State) (place : Place) (o : Nat) (v : Word) (rest : List Access),
    placeOffset s place = some o → 0x18 ≤ o → o ≤ 0x3C → o % 4 = 0 →
    (s.pending = .regWrite place 32 v :: rest → step s = .next { s with pending := rest }) ∧
    (s.pending = .regRead place 32 :: rest →
      step s = .next { s with pending := rest, readData := .register 0 })

/-- R21, R22, R25: STATUS ignores writes and reads as the STATUS word; CMD reads as zero and starts nothing; by offset or
by bus address (what a read returns stands in `readData`, log 12). -/
def Obligations.StatusAndCmdAccesses : Prop :=
  ∀ (s : State) (place : Place) (v : Word) (rest : List Access),
    (placeOffset s place = some 0x04 →
      (s.pending = .regWrite place 32 v :: rest → step s = .next { s with pending := rest }) ∧
      (s.pending = .regRead place 32 :: rest →
        step s = .next { s with pending := rest, readData := .register (statusWord s) })) ∧
    (placeOffset s place = some 0x00 → s.pending = .regRead place 32 :: rest →
      step s = .next { s with pending := rest, readData := .register 0 })

/-- R25, R200: the fields of STATUS: RESULT in bits 3:0, CTX_STATE in bits 5:4 with the values of the tables, and
bits 31:6 zero. -/
def Obligations.StatusFields : Prop :=
  ∀ s : State,
    (statusWord s).extractLsb' 0 4 =
      (match s.result with
        | .success => 0 | .invalidContext => 1 | .invalidParameter => 2 | .illegalCommand => 3 | .busError => 4) ∧
    (statusWord s).extractLsb' 4 2 = (match s.uctx.phase with | .uninit => 0 | .active => 1 | .finalized => 2) ∧
    (statusWord s).extractLsb' 6 26 = 0

/-- R29, R218: an access to the register block, by offset or by bus address, that is not 32 bits wide, or not at a
multiple of 4, is refused, by name; so is one on the bus that begins below `BASE` and covers some of the block, and such an
access is always of another width or misaligned. Which name is reported is the model's choice, and that an access from
below is one to the block is deduced (log 9). -/
def Obligations.NarrowOrMisalignedAccessesRefused : Prop :=
  (∀ (s : State) (place : Place) (o width : Nat) (v : Word) (rest : List Access), placeOffset s place = some o →
    (s.pending = .regWrite place width v :: rest ∨ s.pending = .regRead place width :: rest) →
    (width ≠ 32 → step s = .refused (.registerAccessWidth width)) ∧
    (width = 32 → o % 4 ≠ 0 → step s = .refused (.registerAccessMisaligned o))) ∧
  (∀ (s : State) (a width : Nat) (v : Word) (rest : List Access),
    a < busBase s → 8 * busBase s < 8 * a + width →
    (s.pending = .regWrite (.bus a) width v :: rest ∨ s.pending = .regRead (.bus a) width :: rest) →
    step s = .refused (.registerAccessFromBelow a width) ∧ (width ≠ 32 ∨ a % 4 ≠ 0))

/-- R10, R21: `BASE` is 64-byte aligned, a bus address of the block is its offset from `BASE`, and the bus addresses
just outside are not the engine's. -/
def Obligations.BusAddressesOfTheBlock : Prop :=
  ∀ s : State,
    busBase s % 64 = 0 ∧
    (∀ o : Nat, o < 64 → placeOffset s (.bus (busBase s + o)) = some o ∧ placeOffset s (.reg o) = some o) ∧
    (∀ a : Nat, a < busBase s ∨ busBase s + 64 ≤ a → placeOffset s (.bus a) = none)

/-- R219, R29: the machine stops exactly at an access that covers some of the register block and is not 32 bits wide or
not at a multiple of 4 (one that begins in the block, or below `BASE` and reaches it), and there by a refusal; every other
step goes on, and none faults. That an access from below `BASE` is one to the block is deduced (log 9). That an access which
covers nothing of the block goes on (log 3), that a host access past the end of `M` does (log 10), and that an idle engine
takes a step (log 1), is the model's choice. -/
def Obligations.OnlyUndefinedHostAccessesStop : Prop :=
  ∀ s : State,
    let undefinedAccess : Prop := ∃ place width v rest,
      (s.pending = .regWrite place width v :: rest ∨ s.pending = .regRead place width :: rest) ∧
      ((∃ o, placeOffset s place = some o ∧ (width ≠ 32 ∨ o % 4 ≠ 0)) ∨
        (∃ a, place = .bus a ∧ a < busBase s ∧ 8 * busBase s < 8 * a + width))
    (undefinedAccess → ∃ r, step s = .refused r) ∧ (¬ undefinedAccess → GoesOn s)

/-- R26: a step that changes RESULT is a 32-bit write to CMD or the platform's reset. -/
def Obligations.ResultChangedOnlyByCommands : Prop :=
  ∀ s t : State, step s = .next t → t.result ≠ s.result →
    ∃ x rest, s.pending = x :: rest ∧
      (x = .platformReset ∨ ∃ place w, x = .regWrite place 32 w ∧ placeOffset s place = some 0x00)

/-- R63, R50: the host reads back what it wrote to `M`, every other byte is as before, and the engine's registers are not
touched. That the host may do so at address 0 is deduced (log 21), that a write of no bytes goes on is the model's
choice (log 10), and what a read returns stands in `readData`, the model's own field (log 12). -/
def Obligations.HostMemoryReadsBackWrites : Prop :=
  ∀ (s : State) (a : Nat) (v : List Byte) (rest : List Access), a + v.length ≤ s.memSize →
    s.pending = .memWrite a v :: .memRead a v.length :: rest →
    ∃ t u, step s = .next t ∧ step t = .next u ∧ u.readData = .memory v ∧ u.pending = rest ∧
      (∀ x, x < a ∨ a + v.length ≤ x → memByte u x = memByte s x) ∧
      u.args = s.args ∧ u.result = s.result ∧ u.uctx = s.uctx

/-- R77: the host's branch reads STATUS and goes on at its target exactly when RESULT is not Success. A target is a place in
the host's list, and the STATUS read stays in `readData`: the model's choice (logs 13 and 19). -/
def Obligations.BranchTakenExactlyOnFailure : Prop :=
  ∀ (s : State) (target : Nat) (rest : List Access), s.pending = .branchIfFailed target :: rest →
    (s.result = .success →
      step s = .next { s with pending := rest, readData := .register (statusWord s) }) ∧
    (s.result ≠ .success →
      step s = .next { s with pending := s.script.drop target, readData := .register (statusWord s) })

/-! ### Reset (70_reset_and_hazards.md) -/

/-- R40, R230: after reset STATUS reads 0 and the ARG registers are 0; a platform reset between commands brings the
engine there from any state, and leaves it UNINIT with no byte of `M` known. That the platform's parameters and the
host's side stay is the model's choice (log 11). -/
def Obligations.ResetLeavesTheListedValues : Prop :=
  (statusWord State.reset = 0 ∧ State.reset.args = Vector.replicate 4 0 ∧ State.reset.result = .success ∧
    State.reset.uctx.phase = .uninit ∧ State.reset.mem = []) ∧
  (∀ (s : State) (rest : List Access), s.pending = .platformReset :: rest →
    ∃ t, step s = .next t ∧ statusWord t = 0 ∧ t.args = Vector.replicate 4 0 ∧ t.result = .success ∧
      t.uctx.phase = .uninit ∧ t.mem = [] ∧ t.memSize = s.memSize ∧ t.lenMode = s.lenMode ∧
      t.baseBlock = s.baseBlock ∧ t.pending = rest ∧ t.script = s.script ∧ t.readData = s.readData)

/-- R232: reset is not SHA_INIT: after it SHA_UPDATE and SHA_FINAL end with InvalidContext, and SHA_INIT is what loads
`SHA_IV` and zeroes the counters. -/
def Obligations.ResetIsNotShaInit : Prop :=
  State.reset.uctx.phase = .uninit ∧
  (∀ s : State, s.uctx.phase = .uninit →
    exec .shaUpdate s = .next { s with result := .invalidContext } ∧
    exec .shaFinal s = .next { s with result := .invalidContext } ∧
    ∃ t, exec .shaInit s = .next t ∧ t.uctx.ctx.words = shaIV ∧ t.uctx.ctx.pendLen = 0 ∧ t.uctx.ctx.count = 0 ∧
      t.uctx.phase = .active)

/-! ### Result codes and what a command may change (60_exceptions.md, 20_memory.md) -/

/-- R208, R219: every command answers a next state from every state; none stops the machine. -/
def Obligations.EveryCommandAnswers : Prop :=
  ∀ (i : Instr) (s : State), ∃ t, exec i s = .next t

/-- R207: the result code of a write to CMD is the first that applies of: no command selected, context not ACTIVE, null
pointer or length not allowed, invalid region; and Success otherwise. -/
def Obligations.ResultCodePriority : Prop :=
  ∀ (w : Word) (s t : State), writeCommand w s = .next t →
    (∀ e, decode w = .error e → t.result = .illegalCommand) ∧
    (∀ i, decode w = .ok i →
      let badContext : Prop := (i = .shaUpdate ∨ i = .shaFinal) ∧ s.uctx.phase ≠ .active
      let badParameter : Prop :=
        match i with
        | .shaInit => False
        | .shaUpdate => (0 < arg s 1 ∧ arg s 0 = 0) ∨ 2 ^ 61 - 1 < s.uctx.ctx.count.toNat + arg s 1
        | .shaFinal => arg s 0 = 0
        | .hmac => arg s 0 = 0 ∨ (arg s 1 = 0 ∧ 0 < arg s 2) ∨ arg s 3 = 0
        | .cbcCipher => arg s 0 = 0 ∨ arg s 1 = 0 ∨ arg s 2 = 0 ∨ arg s 3 % 16 ≠ 0
        | .cbcDecipher => arg s 0 = 0 ∨ arg s 1 = 0 ∨ arg s 2 = 0 ∨ arg s 3 % 16 ≠ 0
        | .kdfDerive => arg s 0 = 0 ∨ arg s 1 = 0 ∨ arg s 2 = 0 ∨ arg s 3 = 0
      let badRegion : Prop := ∃ r ∈ regions i s, ¬ RegionValid s.memSize r.1 r.2
      (badContext → t.result = .invalidContext) ∧
      (¬ badContext → badParameter → t.result = .invalidParameter) ∧
      (¬ badContext → ¬ badParameter → badRegion → t.result = .busError) ∧
      (¬ badContext → ¬ badParameter → ¬ badRegion → t.result = .success))

/-- R60: a command, whatever its word, that ends with any result other than Success has written nothing to `M` and
changed nothing in the user context; RESULT is all it changes. -/
def Obligations.FailedCommandChangesOnlyResult : Prop :=
  ∀ (w : Word) (s t : State), writeCommand w s = .next t → t.result ≠ .success → t = { s with result := t.result }

/-- R202: InvalidContext is the result of SHA_UPDATE or SHA_FINAL outside ACTIVE, and of nothing else. -/
def Obligations.InvalidContextExactlyOutsideActive : Prop :=
  ∀ (i : Instr) (s t : State), exec i s = .next t →
    (t.result = .invalidContext ↔ (i = .shaUpdate ∨ i = .shaFinal) ∧ s.uctx.phase ≠ .active)

/-- R23 and the frame of every command: no command writes an ARG register, and none touches the platform's parameters
or the host's side. -/
def Obligations.CommandsKeepOperandsAndHostSide : Prop :=
  ∀ (i : Instr) (s t : State), exec i s = .next t →
    t.args = s.args ∧ t.memSize = s.memSize ∧ t.lenMode = s.lenMode ∧ t.baseBlock = s.baseBlock ∧
    t.resets = s.resets ∧ t.script = s.script ∧ t.pending = s.pending ∧ t.readData = s.readData

/-- R74 and the frame of every command: a byte of `M` outside the region the command's row of the table stores to is
unchanged (all of `M` for SHA_INIT and SHA_UPDATE, whose stored region is empty). -/
def Obligations.MemoryOutsideStoredRegionUnchanged : Prop :=
  ∀ (i : Instr) (s t : State), exec i s = .next t →
    ∀ a : Nat, ¬ InRegion a (storedRegion i s) → memByte t a = memByte s a

/-- R52: the engine never writes `M[0]`, and a command that executes normally reads no region that holds it. -/
def Obligations.NullAddressNeverAccessed : Prop :=
  ∀ (i : Instr) (s t : State), exec i s = .next t →
    memByte t 0 = memByte s 0 ∧ (Ready i s → ∀ r ∈ readRegions i s, ¬ InRegion 0 r)

/-- R59, R115: what a command does is a function of its operands, the user context and the bytes of the regions it
reads: two states that agree on those end with the same result, the same user context and the same stored bytes. The
draw counter selects the free values of a finalised context (the model's own, log 8), so it is among the premises. -/
def Obligations.CommandsSeeOnlyTheirRegions : Prop :=
  ∀ (i : Instr) (s1 s2 t1 t2 : State),
    s1.args = s2.args → s1.uctx = s2.uctx → s1.memSize = s2.memSize → s1.lenMode = s2.lenMode →
    s1.draws = s2.draws →
    (∀ r ∈ readRegions i s1, ∀ a, InRegion a r → memByte s1 a = memByte s2 a) →
    exec i s1 = .next t1 → exec i s2 = .next t2 →
    t1.result = t2.result ∧ t1.uctx = t2.uctx ∧
    (Ready i s1 → ∀ a, InRegion a (storedRegion i s1) → memByte t1 a = memByte t2 a)

/-! ### The streaming hash (40_sha256.md) -/

/-- R106: SHA_INIT, the word 0x00000001, ends with Success in every state, with the context ACTIVE, `H = SHA_IV`, `BLK`
zero, `PEND_LEN` and `COUNT` 0, and nothing else changed. -/
def Obligations.ShaInitStartsMessage : Prop :=
  decode 0x00000001 = .ok .shaInit ∧ ∀ s : State, exec .shaInit s = .next { s with
    result := .success
    uctx := { phase := .active, ctx := {
      words := ⟨0x6a09e667, 0xbb67ae85, 0x3c6ef372, 0xa54ff53a, 0x510e527f, 0x9b05688c, 0x1f83d9ab, 0x5be0cd19⟩
      blk := Vector.replicate 64 0
      pendLen := 0
      count := 0 } } }

/-- R107: when SHA_UPDATE executes normally it absorbs the bytes of its region in address order, ends with Success and
changes nothing else; the bytes it absorbs are added to COUNT, and a length of 0 changes no field of the context. -/
def Obligations.ShaUpdateAbsorbsRegion : Prop :=
  ∀ s : State, Ready .shaUpdate s →
    (∃ t, exec .shaUpdate s = .next t ∧
      t = { s with result := .success, uctx := t.uctx } ∧ t.uctx.phase = .active ∧
      t.uctx.ctx = absorb s.uctx.ctx (memRead s (arg s 0) (arg s 1)) ∧
      t.uctx.ctx.count.toNat = s.uctx.ctx.count.toNat + arg s 1) ∧
    (arg s 1 = 0 → exec .shaUpdate s = .next { s with result := .success })

/-- R107, the loop of Absorb: one more byte goes to the next slot of BLK; the byte that fills the block compresses it
into H and empties it. -/
def Obligations.AbsorbingOneByte : Prop :=
  ∀ (c : HashContext) (b : Byte), c.pendLen.val < 64 →
    let blk := c.blk.setIfInBounds c.pendLen.val b
    (c.pendLen.val < 63 →
      (absorb c [b]).pendLen.val = c.pendLen.val + 1 ∧ (absorb c [b]).words = c.words ∧ (absorb c [b]).blk = blk) ∧
    (c.pendLen.val = 63 →
      (absorb c [b]).pendLen = 0 ∧ (absorb c [b]).words = compress c.words blk) ∧
    (absorb c [b]).count = c.count + 1

/-- R108: a SHA_UPDATE that would pass `MAX_MSG_BYTES` ends with InvalidParameter and changes nothing; up to that limit
the FULL64 length field holds the exact bit count. -/
def Obligations.MessageLengthLimit : Prop :=
  (∀ s : State, s.uctx.phase = .active → 2 ^ 61 - 1 < s.uctx.ctx.count.toNat + arg s 1 →
    exec .shaUpdate s = .next { s with result := .invalidParameter }) ∧
  (∀ n : BitVec 64, n.toNat ≤ 2 ^ 61 - 1 → (bitLength .full64 n).toNat = 8 * n.toNat)

/-- R109: when SHA_FINAL executes normally it writes the 32-byte digest of the context at its operand, the context is
FINALIZED, and it ends with Success; registers and the platform's parameters are unchanged. Nothing is said of the
context fields after it: they hold no defined value (R34). -/
def Obligations.ShaFinalWritesDigest : Prop :=
  ∀ s : State, Ready .shaFinal s →
    ∃ t, exec .shaFinal s = .next t ∧
      t = { s with result := .success, uctx := t.uctx, mem := t.mem, draws := t.draws } ∧
      t.uctx.phase = .finalized ∧
      memRead t (arg s 0) 32 = finalizeDigest s.lenMode s.uctx.ctx ∧
      (∀ a, ¬ InRegion a (arg s 0, 32) → memByte t a = memByte s a)

/-- R111: with the context ACTIVE and `PEND_LEN >= 64`, a SHA_UPDATE or SHA_FINAL that passes its other checks ends with
Success and has no other effect. -/
def Obligations.CorruptedPendingLengthIsGuarded : Prop :=
  ∀ s : State, s.uctx.phase = .active → 64 ≤ s.uctx.ctx.pendLen.val →
    ((arg s 1 = 0 ∨ arg s 0 ≠ 0) → s.uctx.ctx.count.toNat + arg s 1 ≤ 2 ^ 61 - 1 →
      RegionValid s.memSize (arg s 0) (arg s 1) → exec .shaUpdate s = .next { s with result := .success }) ∧
    (arg s 0 ≠ 0 → RegionValid s.memSize (arg s 0) 32 → exec .shaFinal s = .next { s with result := .success })

/-- R104: the transitions of `UCTX.STATE` by commands, over every command and every state. -/
def Obligations.ContextLifecycle : Prop :=
  ∀ (i : Instr) (s t : State), exec i s = .next t →
    (i = .shaInit → t.uctx.phase = .active ∧ t.result = .success) ∧
    (i = .shaUpdate → s.uctx.phase ≠ .active → t = { s with result := .invalidContext }) ∧
    (i = .shaUpdate → s.uctx.phase = .active → t.uctx.phase = .active) ∧
    (i = .shaFinal → s.uctx.phase ≠ .active → t = { s with result := .invalidContext }) ∧
    (i = .shaFinal → s.uctx.phase = .active →
      (Ready .shaFinal s → t.uctx.phase = .finalized) ∧ (¬ Ready .shaFinal s → t.uctx = s.uctx)) ∧
    (i ≠ .shaInit → i ≠ .shaUpdate → i ≠ .shaFinal → t.uctx = s.uctx)

/-- R104, its last sentence, and R27: a step that changes `UCTX.STATE` is a write of SHA_INIT or SHA_FINAL to CMD, or the
platform's reset. -/
def Obligations.PhaseChangedOnlyByShaCommandsOrReset : Prop :=
  ∀ s t : State, step s = .next t → t.uctx.phase ≠ s.uctx.phase →
    ∃ x rest, s.pending = x :: rest ∧
      (x = .platformReset ∨
        ∃ place w, x = .regWrite place 32 w ∧ placeOffset s place = some 0x00 ∧
          (decode w = .ok .shaInit ∨ decode w = .ok .shaFinal))

/-- R103: the message schedule has 64 words: the 16 big-endian words of the block, then each by the recurrence. -/
def Obligations.MessageScheduleRecurrence : Prop :=
  ∀ (blk : Vector Byte 64),
    let w := fun t => (messageSchedule blk).getD t 0
    (messageSchedule blk).length = 64 ∧
    (∀ (t : Nat) (h : t < 16), w t = wordOfBytes blk[4 * t] blk[4 * t + 1] blk[4 * t + 2] blk[4 * t + 3]) ∧
    (∀ t : Nat, 16 ≤ t → t < 64 →
      w t = smallSigma1 (w (t - 2)) + w (t - 7) + smallSigma0 (w (t - 15)) + w (t - 16))

/-- R113, first half: absorbing a message in two pieces is absorbing it whole. -/
def Obligations.AbsorbSplitsAnywhere : Prop :=
  ∀ (c : HashContext) (m1 m2 : List Byte), absorb c (m1 ++ m2) = absorb (absorb c m1) m2

/-- R32: the fields of a context that has absorbed `m` from SHA_INIT: the pending length and count, the pending bytes,
and the chaining value of the full blocks. -/
def Obligations.AbsorbedContextFields : Prop :=
  ∀ m : List Byte, m.length ≤ 2 ^ 61 - 1 →
    let c := absorb initContext m
    c.count.toNat = m.length ∧ c.pendLen.val = m.length % 64 ∧ c.words = chainingValue m ∧
    (∀ (i : Nat) (h : i < 64), i < m.length % 64 → c.blk[i] = m.getD (64 * (m.length / 64) + i) 0)

/-- R110, R105: in FULL64 the digest of a message is the standard one: the padded message, cut into 64-byte blocks,
compressed in order from `SHA_IV`, and the chaining value written big-endian. -/
def Obligations.Sha256IsStandardPaddedHash : Prop :=
  ∀ m : List Byte, m.length ≤ 2 ^ 61 - 1 →
    (paddedMessage m).length % 64 = 0 ∧ sha256 .full64 m = digestBytes (chainingValue (paddedMessage m))

/-- R110: LEGACY32 and FULL64 give the same digest for every count below 2^29 bytes. -/
def Obligations.LengthModesAgreeBelow512MiB : Prop :=
  ∀ c : HashContext, c.count.toNat < 2 ^ 29 → finalizeDigest .legacy32 c = finalizeDigest .full64 c

/-- R112, R115: every digest is 32 bytes, word `H[0]` first and each word most significant byte first. -/
def Obligations.DigestBytesBigEndian : Prop :=
  (∀ (mode : LenMode) (m : List Byte), (sha256 mode m).length = 32) ∧
  (∀ h : HashWords, (digestBytes h).take 4 =
    [h.a.extractLsb' 24 8, h.a.extractLsb' 16 8, h.a.extractLsb' 8 8, h.a.extractLsb' 0 8] ∧
    wordsOfBytes (digestBytes h) = [h.a, h.b, h.c, h.d, h.e, h.f, h.g, h.h])

/-- R113: however a message is cut into SHA_UPDATE commands, and whatever runs between them that leaves the user context
alone (R244), SHA_INIT, the updates and SHA_FINAL, each ending with Success, write `Sha256` of the whole message. -/
def Obligations.StreamingEqualsOneShot : Prop :=
  ∀ (s0 t0 s t : State) (m : List Byte) (u : UserContext),
    exec .shaInit s0 = .next t0 → Absorbs t0.uctx m u → s.uctx = u →
    exec .shaFinal s = .next t → t.result = .success →
    memRead t (arg s 0) 32 = sha256 s.lenMode m ∧ t.uctx.phase = .finalized

/-! ### HMAC (41_hmac.md) -/

/-- R141, R56, R143: when HMAC executes normally it writes the 32-byte MAC of the key and message as they stood at the
start, whatever overlaps, and changes nothing else: not the user context, not an ARG register. -/
def Obligations.HmacWritesMac : Prop :=
  ∀ s : State, Ready .hmac s →
    ∃ t, exec .hmac s = .next t ∧ t = { s with result := .success, mem := t.mem } ∧
      memRead t (arg s 3) 32 = hmacSha256 s.lenMode (memRead s (arg s 0) 16) (memRead s (arg s 1) (arg s 2)) ∧
      (∀ a, ¬ InRegion a (arg s 3, 32) → memByte t a = memByte s a)

/-- R142: for a 16-byte key the construction is the standard one: the key padded with zeros to 64 bytes, XORed with the
repeated pad bytes. -/
def Obligations.HmacIsStandardHmac : Prop :=
  ∀ (mode : LenMode) (key m : List Byte), key.length = 16 →
    hmacSha256 mode key m =
      sha256 mode (List.zipWith (· ^^^ ·) (key ++ List.replicate 48 0) (List.replicate 64 0x5c) ++
        sha256 mode (List.zipWith (· ^^^ ·) (key ++ List.replicate 48 0) (List.replicate 64 0x36) ++ m))

/-- R143, R35, R244: HMAC, the CBC commands and KDF_DERIVE leave every field of the user context unchanged, so the
streaming hash in progress goes on untouched. -/
def Obligations.OtherCommandsLeaveUserContext : Prop :=
  ∀ (i : Instr) (s t : State), i = .hmac ∨ i = .cbcCipher ∨ i = .cbcDecipher ∨ i = .kdfDerive →
    exec i s = .next t → t.uctx = s.uctx ∧ t.draws = s.draws

/-! ### CBC (42_cbc.md) -/

/-- R161, R166, R56: when CBC_CIPHER executes normally, ciphertext block `j` is `E` of plaintext block `j` XOR the
ciphertext block before it (the IV for block 0), under the key and IV as they stood at the start; bytes outside the
buffer and everything but memory and RESULT are unchanged. -/
def Obligations.CbcCipherChainsBlocks : Prop :=
  ∀ s : State, Ready .cbcCipher s →
    ∃ t, exec .cbcCipher s = .next t ∧ t = { s with result := .success, mem := t.mem } ∧
      (∀ j, j < arg s 3 / 16 →
        readBlock t (arg s 2 + 16 * j) = Config.encrypt (readBlock s (arg s 0))
          (xorBlock (readBlock s (arg s 2 + 16 * j))
            (if j = 0 then readBlock s (arg s 1) else readBlock t (arg s 2 + 16 * (j - 1))))) ∧
      (∀ a, ¬ InRegion a (arg s 2, arg s 3) → memByte t a = memByte s a)

/-- R162, R166, R56: when CBC_DECIPHER executes normally, plaintext block `j` is `D` of ciphertext block `j` XOR the
ciphertext block before it (the IV for block 0), all as they stood at the start; the frame is as for CBC_CIPHER. -/
def Obligations.CbcDecipherUnchainsBlocks : Prop :=
  ∀ s : State, Ready .cbcDecipher s →
    ∃ t, exec .cbcDecipher s = .next t ∧ t = { s with result := .success, mem := t.mem } ∧
      (∀ j, j < arg s 3 / 16 →
        readBlock t (arg s 2 + 16 * j) = xorBlock
          (Config.decrypt (readBlock s (arg s 0)) (readBlock s (arg s 2 + 16 * j)))
          (if j = 0 then readBlock s (arg s 1) else readBlock s (arg s 2 + 16 * (j - 1)))) ∧
      (∀ a, ¬ InRegion a (arg s 2, arg s 3) → memByte t a = memByte s a)

/-- R166, its last sentence: two decipherings whose ciphertexts differ only in block `j` differ only in plaintext
blocks `j` and `j + 1`. -/
def Obligations.CbcDecipherErrorStaysLocal : Prop :=
  ∀ (s1 s2 t1 t2 : State) (j : Nat), Ready .cbcDecipher s1 → s1.args = s2.args → s1.memSize = s2.memSize →
    readBlock s1 (arg s1 0) = readBlock s2 (arg s1 0) → readBlock s1 (arg s1 1) = readBlock s2 (arg s1 1) →
    (∀ k, k < arg s1 3 / 16 → k ≠ j →
      readBlock s1 (arg s1 2 + 16 * k) = readBlock s2 (arg s1 2 + 16 * k)) →
    exec .cbcDecipher s1 = .next t1 → exec .cbcDecipher s2 = .next t2 →
    ∀ k, k < arg s1 3 / 16 → k ≠ j → k ≠ j + 1 →
      readBlock t1 (arg s1 2 + 16 * k) = readBlock t2 (arg s1 2 + 16 * k)

/-- R163: a length that is not a multiple of 16 ends with InvalidParameter before any access; length 0 ends with Success
and writes nothing; every other multiple of 16 whose region is valid is accepted. -/
def Obligations.CbcLengthRule : Prop :=
  ∀ (i : Instr) (s : State), i = .cbcCipher ∨ i = .cbcDecipher →
    (arg s 3 % 16 ≠ 0 → exec i s = .next { s with result := .invalidParameter }) ∧
    (arg s 3 = 0 → Ready i s → exec i s = .next { s with result := .success }) ∧
    (Ready i s → ∃ t, exec i s = .next t ∧ t.result = .success)

/-- R165: CBC_CIPHER then CBC_DECIPHER with the same operands, where neither the key nor the IV region overlaps the
buffer, leaves the buffer as it was (and, with it, all of `M`). A buffer of length 0 whose address lies inside the key or
the IV region is left to CbcLengthRule: both commands then change RESULT only. -/
def Obligations.CbcRoundTrip : Prop :=
  ∀ s t u : State, Ready .cbcCipher s →
    (arg s 0 + 16 ≤ arg s 2 ∨ arg s 2 + arg s 3 ≤ arg s 0) →
    (arg s 1 + 16 ≤ arg s 2 ∨ arg s 2 + arg s 3 ≤ arg s 1) →
    exec .cbcCipher s = .next t → exec .cbcDecipher t = .next u →
    t.result = .success ∧ u.result = .success ∧ ∀ a, memByte u a = memByte s a

/-- R12: the block cipher's only law, under every key. -/
def Obligations.BlockCipherLaw : Prop :=
  ∀ k b : Block, Config.decrypt k (Config.encrypt k b) = b

/-! ### KDF (43_kdf.md) -/

/-- R182, R183, R56: when KDF_DERIVE executes normally it writes CipherAB, CipherBA, SignAB and SignBA at `out`,
`out + 16`, `out + 32` and `out + 48`: the halves of the hashes of `CTR1 ‖ W ‖ KDF_TAG1` and `CTR2 ‖ W ‖ KDF_TAG2`, with
`W = E(E(A, A), R)` of the inputs as they stood at the start; nothing else changes. -/
def Obligations.KdfWritesSessionKeys : Prop :=
  ∀ s : State, Ready .kdfDerive s →
    let a := readBlock s (arg s 0)
    let w := (Config.encrypt (Config.encrypt a a) (readBlock s (arg s 2))).toList
    let first := sha256 s.lenMode ([0x00, 0x00, 0x00, 0x00] ++ w ++ [0x02, 0x6A, 0x53, 0x82, 0xE6, 0x53])
    let second := sha256 s.lenMode ([0x00, 0x00, 0x00, 0x01] ++ w ++ [0x02, 0x6A])
    ∃ t, exec .kdfDerive s = .next t ∧ t = { s with result := .success, mem := t.mem } ∧
      memRead t (arg s 3) 16 = first.take 16 ∧ memRead t (arg s 3 + 16) 16 = first.drop 16 ∧
      memRead t (arg s 3 + 32) 16 = second.take 16 ∧ memRead t (arg s 3 + 48) 16 = second.drop 16 ∧
      (∀ x, ¬ InRegion x (arg s 3, 64) → memByte t x = memByte s x)

/-- R181: a null RndA ends with InvalidParameter; any nonzero RndA, in `M` or not, and whatever its bytes are, gives the
same result and the same session key material. -/
def Obligations.KdfIgnoresRndA : Prop :=
  (∀ s : State, arg s 1 = 0 → exec .kdfDerive s = .next { s with result := .invalidParameter }) ∧
  (∀ s1 s2 t1 t2 : State, arg s1 1 ≠ 0 → arg s2 1 ≠ 0 → arg s1 0 = arg s2 0 → arg s1 2 = arg s2 2 →
    arg s1 3 = arg s2 3 → s1.memSize = s2.memSize → s1.lenMode = s2.lenMode →
    readBlock s1 (arg s1 0) = readBlock s2 (arg s1 0) → readBlock s1 (arg s1 2) = readBlock s2 (arg s1 2) →
    exec .kdfDerive s1 = .next t1 → exec .kdfDerive s2 = .next t2 →
    t1.result = t2.result ∧ (t1.result = .success → memRead t1 (arg s1 3) 64 = memRead t2 (arg s1 3) 64))

/-! ### The host script (30_encoding.md) -/

/-- R78, R22: a command statement assembles to the writes of its operands, `op_j` to ARGj at offset `0x08 + 4 * j`, in
this order, and then of its command word to CMD, and to nothing else; running those accesses is the command with those
operands, the other ARG registers as they were. -/
def Obligations.AssembledCommandRuns : Prop :=
  ∀ (i : Instr) (ops : List Word) (s : State) (rest : List Access), ops.length = operandCount i →
    ∃ p, assembleStmt [] [] (.command i (ops.map .num)) = some p ∧ p.length = operandCount i + 1 ∧
      (∀ (j : Nat) (v : Word), ops[j]? = some v → p[j]? = some (.regWrite (.reg (0x08 + 4 * j)) 32 v)) ∧
      p[operandCount i]? = some (.regWrite (.reg 0x00) 32 (encode i)) ∧
      Host.Core.run Sys2Proof.core (operandCount i + 1) { s with pending := p ++ rest } =
        exec i { s with pending := rest, args := Vector.ofFn fun j => ops.getD j.val s.args[j] }

/-- R79: the pseudo-instruction SHA256 assembles to six accesses, and running them from any state writes the one-shot
digest of its data at its digest operand, when the pointers and regions are the ones its commands accept. `loadProgram`
places the accesses in the host's list (the model's own, log 1). -/
def Obligations.Sha256PseudoInstruction : Prop :=
  ∀ (s : State) (data len digest : Word), (len = 0 ∨ data ≠ 0) → digest ≠ 0 →
    RegionValid s.memSize data.toNat len.toNat → RegionValid s.memSize digest.toNat 32 →
    ∃ p t, assemble [] [.sha256 (.num data) (.num len) (.num digest)] = some p ∧ p.length = 6 ∧
      Host.Core.run Sys2Proof.core 6 (loadProgram p s) = .next t ∧ t.pending = [] ∧ t.result = .success ∧
      t.uctx.phase = .finalized ∧
      memRead t digest.toNat 32 = sha256 s.lenMode (memRead s data.toNat len.toNat)

/-! ### Invariants -/

/-- 20_memory.md R50, 00_scope.md R10, 10_state.md R32: every step keeps the invariant, from every state that has it. -/
def Obligations.StepKeepsInvariant : Prop :=
  ∀ s t : State, s.Inv → step s = .next t → t.Inv

/-- The state after reset has the invariant. -/
def Obligations.ResetMeetsInvariant : Prop := State.reset.Inv

/-- R32, R33: in a state with the invariant an ACTIVE context has `PEND_LEN` at most 63 and equal to `COUNT` modulo 64,
and `COUNT` at most `MAX_MSG_BYTES`; so the guard of R111 is not taken. -/
def Obligations.InvariantRulesOutGuard : Prop :=
  ∀ s : State, s.Inv → s.uctx.phase = .active →
    s.uctx.ctx.pendLen.val ≤ 63 ∧ s.uctx.ctx.pendLen.val = s.uctx.ctx.count.toNat % 64 ∧
    s.uctx.ctx.count.toNat ≤ 2 ^ 61 - 1 ∧ guardTaken s = false

/-! ### The host's other accesses (10_state.md R21, 20_memory.md R50, 30_encoding.md R77) -/

/-- R77: the host's `goto` goes on at its target, whatever RESULT is, and touches nothing of the engine; a target past
the end of the script ends the run. A target is a place in the host's list, and taking it is a step of the host: the
model's choices (log 13). -/
def Obligations.GotoContinuesAtTarget : Prop :=
  ∀ (s : State) (target : Nat) (rest : List Access), s.pending = .jump target :: rest →
    step s = .next { s with pending := s.script.drop target } ∧
    (s.script.length ≤ target → step s = .next { s with pending := [] })

/-- R77, R78: a `goto` or a branch to a label assembles to one entry of the host's list whose target is the number of
accesses the statements before the label assemble to, for a label that stands after any command, memory and raw
statements; what follows it does not matter. That `goto` is an entry of its own, and that of two labels of one name the
first counts, is the model's choice (log 13). -/
def Obligations.LabelNamesNextStatement : Prop :=
  ∀ (l : Label) (before later : List Stmt) (p : List Access),
    (∀ x ∈ before, (∃ i ops, x = .command i ops) ∨ (∃ a v, x = .mem a v) ∨ (∃ i v, x = .setArg i v) ∨
      (∃ w, x = .setCmd w)) →
    assemble [] before = some p →
    assembleStmt [] (before ++ .label l :: later) (.goto l) = some [.jump p.length] ∧
    assembleStmt [] (before ++ .label l :: later) (.ifFailed l) = some [.branchIfFailed p.length]

/-- R21, R214: a host access that covers nothing of the 64-byte block (it begins outside, and where it begins below `BASE`
it ends there too) is no access to this engine: a write changes nothing, and a read changes nothing but what the host
read, which is an unknown value. That the model goes on with a free value of a fresh draw, and that the access is none of
`M` either, is its choice (log 3). -/
def Obligations.AccessOutsideBlockLeavesEngine : Prop :=
  ∀ (s : State) (place : Place) (width : Nat) (v : Word) (rest : List Access), placeOffset s place = none →
    (∀ a, place = .bus a → a < busBase s → 8 * a + width ≤ 8 * busBase s) →
    (s.pending = .regWrite place width v :: rest → step s = .next { s with pending := rest }) ∧
    (s.pending = .regRead place width :: rest →
      ∃ x, step s = .next { s with pending := rest, readData := .register x, draws := s.draws + 1 })

/-- R50, R63: a host access to any addresses goes on. A write gives the bytes of `M` it names their values and leaves every
other byte and every register alone; a read returns one byte for each address, for an address of `M` the byte there.
That an address at or above `MEM_SIZE` is passed over by a write and reads as an unknown value is the model's choice
(log 10), and `readData` is the model's own field (log 12). -/
def Obligations.HostAccessReachesOnlyMemory : Prop :=
  ∀ (s : State) (a : Nat) (rest : List Access),
    (∀ v : List Byte, s.pending = .memWrite a v :: rest →
      ∃ t, step s = .next t ∧ t = { s with pending := rest, mem := t.mem } ∧
        (∀ x, x < a ∨ a + v.length ≤ x ∨ s.memSize ≤ x → memByte t x = memByte s x) ∧
        (∀ (i : Nat) (h : i < v.length), a + i < s.memSize → memByte t (a + i) = v[i])) ∧
    (∀ n : Nat, s.pending = .memRead a n :: rest →
      ∃ t bytes, step s = .next t ∧ t = { s with pending := rest, readData := .memory bytes, draws := t.draws } ∧
        bytes.length = n ∧ ∀ i, i < n → a + i < s.memSize → bytes[i]? = some (memByte s (a + i)))
end

