-- ==== Sys2Proof/Laws/State.lean ====
section
/-! SUPPORT. One lemma per field per update of State, true by rfl: a later proof never unfolds a record update. -/

namespace Sys2Proof.Machine

@[simp] theorem memWrite_args (a : Nat) (v : List Byte) (s : State) : (memWrite a v s).args = s.args := rfl
@[simp] theorem memWrite_result (a : Nat) (v : List Byte) (s : State) : (memWrite a v s).result = s.result := rfl
@[simp] theorem memWrite_uctx (a : Nat) (v : List Byte) (s : State) : (memWrite a v s).uctx = s.uctx := rfl
@[simp] theorem memWrite_mem (a : Nat) (v : List Byte) (s : State) : (memWrite a v s).mem = Memory.writeBytes a v s.mem := rfl
@[simp] theorem memWrite_memSize (a : Nat) (v : List Byte) (s : State) : (memWrite a v s).memSize = s.memSize := rfl
@[simp] theorem memWrite_lenMode (a : Nat) (v : List Byte) (s : State) : (memWrite a v s).lenMode = s.lenMode := rfl
@[simp] theorem memWrite_baseBlock (a : Nat) (v : List Byte) (s : State) : (memWrite a v s).baseBlock = s.baseBlock := rfl
@[simp] theorem memWrite_resets (a : Nat) (v : List Byte) (s : State) : (memWrite a v s).resets = s.resets := rfl
@[simp] theorem memWrite_draws (a : Nat) (v : List Byte) (s : State) : (memWrite a v s).draws = s.draws := rfl
@[simp] theorem memWrite_script (a : Nat) (v : List Byte) (s : State) : (memWrite a v s).script = s.script := rfl
@[simp] theorem memWrite_pending (a : Nat) (v : List Byte) (s : State) : (memWrite a v s).pending = s.pending := rfl
@[simp] theorem memWrite_readData (a : Nat) (v : List Byte) (s : State) : (memWrite a v s).readData = s.readData := rfl

@[simp] theorem writeBlock_args (a : Nat) (v : Block) (s : State) : (writeBlock a v s).args = s.args := rfl
@[simp] theorem writeBlock_result (a : Nat) (v : Block) (s : State) : (writeBlock a v s).result = s.result := rfl
@[simp] theorem writeBlock_uctx (a : Nat) (v : Block) (s : State) : (writeBlock a v s).uctx = s.uctx := rfl
@[simp] theorem writeBlock_mem (a : Nat) (v : Block) (s : State) : (writeBlock a v s).mem = Memory.writeBytes a v.toList s.mem := rfl
@[simp] theorem writeBlock_memSize (a : Nat) (v : Block) (s : State) : (writeBlock a v s).memSize = s.memSize := rfl
@[simp] theorem writeBlock_lenMode (a : Nat) (v : Block) (s : State) : (writeBlock a v s).lenMode = s.lenMode := rfl
@[simp] theorem writeBlock_baseBlock (a : Nat) (v : Block) (s : State) : (writeBlock a v s).baseBlock = s.baseBlock := rfl
@[simp] theorem writeBlock_resets (a : Nat) (v : Block) (s : State) : (writeBlock a v s).resets = s.resets := rfl
@[simp] theorem writeBlock_draws (a : Nat) (v : Block) (s : State) : (writeBlock a v s).draws = s.draws := rfl
@[simp] theorem writeBlock_script (a : Nat) (v : Block) (s : State) : (writeBlock a v s).script = s.script := rfl
@[simp] theorem writeBlock_pending (a : Nat) (v : Block) (s : State) : (writeBlock a v s).pending = s.pending := rfl
@[simp] theorem writeBlock_readData (a : Nat) (v : Block) (s : State) : (writeBlock a v s).readData = s.readData := rfl

@[simp] theorem resetEngine_args (s : State) : (resetEngine s).args = Vector.replicate 4 0 := rfl
@[simp] theorem resetEngine_result (s : State) : (resetEngine s).result = .success := rfl
@[simp] theorem resetEngine_uctx (s : State) : (resetEngine s).uctx = { phase := .uninit, ctx := freeContext s.draws } := rfl
@[simp] theorem resetEngine_mem (s : State) : (resetEngine s).mem = [] := rfl
@[simp] theorem resetEngine_memSize (s : State) : (resetEngine s).memSize = s.memSize := rfl
@[simp] theorem resetEngine_lenMode (s : State) : (resetEngine s).lenMode = s.lenMode := rfl
@[simp] theorem resetEngine_baseBlock (s : State) : (resetEngine s).baseBlock = s.baseBlock := rfl
@[simp] theorem resetEngine_resets (s : State) : (resetEngine s).resets = s.resets + 1 := rfl
@[simp] theorem resetEngine_draws (s : State) : (resetEngine s).draws = s.draws + 1 := rfl
@[simp] theorem resetEngine_script (s : State) : (resetEngine s).script = s.script := rfl
@[simp] theorem resetEngine_pending (s : State) : (resetEngine s).pending = s.pending := rfl
@[simp] theorem resetEngine_readData (s : State) : (resetEngine s).readData = s.readData := rfl

@[simp] theorem hostMemWrite_args (a : Nat) (v : List Byte) (s : State) : (hostMemWrite a v s).args = s.args := rfl
@[simp] theorem hostMemWrite_result (a : Nat) (v : List Byte) (s : State) : (hostMemWrite a v s).result = s.result := rfl
@[simp] theorem hostMemWrite_uctx (a : Nat) (v : List Byte) (s : State) : (hostMemWrite a v s).uctx = s.uctx := rfl
@[simp] theorem hostMemWrite_mem (a : Nat) (v : List Byte) (s : State) : (hostMemWrite a v s).mem = Memory.writeBytes a (v.take (s.memSize - a)) s.mem := rfl
@[simp] theorem hostMemWrite_memSize (a : Nat) (v : List Byte) (s : State) : (hostMemWrite a v s).memSize = s.memSize := rfl
@[simp] theorem hostMemWrite_lenMode (a : Nat) (v : List Byte) (s : State) : (hostMemWrite a v s).lenMode = s.lenMode := rfl
@[simp] theorem hostMemWrite_baseBlock (a : Nat) (v : List Byte) (s : State) : (hostMemWrite a v s).baseBlock = s.baseBlock := rfl
@[simp] theorem hostMemWrite_resets (a : Nat) (v : List Byte) (s : State) : (hostMemWrite a v s).resets = s.resets := rfl
@[simp] theorem hostMemWrite_draws (a : Nat) (v : List Byte) (s : State) : (hostMemWrite a v s).draws = s.draws := rfl
@[simp] theorem hostMemWrite_script (a : Nat) (v : List Byte) (s : State) : (hostMemWrite a v s).script = s.script := rfl
@[simp] theorem hostMemWrite_pending (a : Nat) (v : List Byte) (s : State) : (hostMemWrite a v s).pending = s.pending := rfl
@[simp] theorem hostMemWrite_readData (a : Nat) (v : List Byte) (s : State) : (hostMemWrite a v s).readData = s.readData := rfl

@[simp] theorem hostMemRead_args (a n : Nat) (s : State) : (hostMemRead a n s).args = s.args := rfl
@[simp] theorem hostMemRead_result (a n : Nat) (s : State) : (hostMemRead a n s).result = s.result := rfl
@[simp] theorem hostMemRead_uctx (a n : Nat) (s : State) : (hostMemRead a n s).uctx = s.uctx := rfl
@[simp] theorem hostMemRead_mem (a n : Nat) (s : State) : (hostMemRead a n s).mem = s.mem := rfl
@[simp] theorem hostMemRead_memSize (a n : Nat) (s : State) : (hostMemRead a n s).memSize = s.memSize := rfl
@[simp] theorem hostMemRead_lenMode (a n : Nat) (s : State) : (hostMemRead a n s).lenMode = s.lenMode := rfl
@[simp] theorem hostMemRead_baseBlock (a n : Nat) (s : State) : (hostMemRead a n s).baseBlock = s.baseBlock := rfl
@[simp] theorem hostMemRead_resets (a n : Nat) (s : State) : (hostMemRead a n s).resets = s.resets := rfl
@[simp] theorem hostMemRead_draws (a n : Nat) (s : State) : (hostMemRead a n s).draws = s.draws + 1 := rfl
@[simp] theorem hostMemRead_script (a n : Nat) (s : State) : (hostMemRead a n s).script = s.script := rfl
@[simp] theorem hostMemRead_pending (a n : Nat) (s : State) : (hostMemRead a n s).pending = s.pending := rfl
@[simp] theorem hostMemRead_readData (a n : Nat) (s : State) : (hostMemRead a n s).readData = .memory ((List.range n).map fun i => hostByte s (a + i)) := rfl

@[simp] theorem withFetchWord_args (s : State) (nbits w : Nat) : (s.withFetchWord nbits w).args = s.args := rfl
@[simp] theorem withFetchWord_result (s : State) (nbits w : Nat) : (s.withFetchWord nbits w).result = s.result := rfl
@[simp] theorem withFetchWord_uctx (s : State) (nbits w : Nat) : (s.withFetchWord nbits w).uctx = s.uctx := rfl
@[simp] theorem withFetchWord_mem (s : State) (nbits w : Nat) : (s.withFetchWord nbits w).mem = s.mem := rfl
@[simp] theorem withFetchWord_memSize (s : State) (nbits w : Nat) : (s.withFetchWord nbits w).memSize = s.memSize := rfl
@[simp] theorem withFetchWord_lenMode (s : State) (nbits w : Nat) : (s.withFetchWord nbits w).lenMode = s.lenMode := rfl
@[simp] theorem withFetchWord_baseBlock (s : State) (nbits w : Nat) : (s.withFetchWord nbits w).baseBlock = s.baseBlock := rfl
@[simp] theorem withFetchWord_resets (s : State) (nbits w : Nat) : (s.withFetchWord nbits w).resets = s.resets := rfl
@[simp] theorem withFetchWord_draws (s : State) (nbits w : Nat) : (s.withFetchWord nbits w).draws = s.draws := rfl
@[simp] theorem withFetchWord_script (s : State) (nbits w : Nat) : (s.withFetchWord nbits w).script = s.script := rfl
@[simp] theorem withFetchWord_pending (s : State) (nbits w : Nat) : (s.withFetchWord nbits w).pending = commandWrite (commandWordOfBits nbits w) :: s.pending := rfl
@[simp] theorem withFetchWord_readData (s : State) (nbits w : Nat) : (s.withFetchWord nbits w).readData = s.readData := rfl

@[simp] theorem loadProgram_args (p : List Access) (s : State) : (loadProgram p s).args = s.args := rfl
@[simp] theorem loadProgram_result (p : List Access) (s : State) : (loadProgram p s).result = s.result := rfl
@[simp] theorem loadProgram_uctx (p : List Access) (s : State) : (loadProgram p s).uctx = s.uctx := rfl
@[simp] theorem loadProgram_mem (p : List Access) (s : State) : (loadProgram p s).mem = s.mem := rfl
@[simp] theorem loadProgram_memSize (p : List Access) (s : State) : (loadProgram p s).memSize = s.memSize := rfl
@[simp] theorem loadProgram_lenMode (p : List Access) (s : State) : (loadProgram p s).lenMode = s.lenMode := rfl
@[simp] theorem loadProgram_baseBlock (p : List Access) (s : State) : (loadProgram p s).baseBlock = s.baseBlock := rfl
@[simp] theorem loadProgram_resets (p : List Access) (s : State) : (loadProgram p s).resets = s.resets := rfl
@[simp] theorem loadProgram_draws (p : List Access) (s : State) : (loadProgram p s).draws = s.draws := rfl
@[simp] theorem loadProgram_script (p : List Access) (s : State) : (loadProgram p s).script = p := rfl
@[simp] theorem loadProgram_pending (p : List Access) (s : State) : (loadProgram p s).pending = p := rfl
@[simp] theorem loadProgram_readData (p : List Access) (s : State) : (loadProgram p s).readData = s.readData := rfl

@[simp] theorem reset_args : State.reset.args = Vector.replicate 4 0 := rfl
@[simp] theorem reset_result : State.reset.result = .success := rfl
@[simp] theorem reset_uctx : State.reset.uctx = { phase := .uninit, ctx := HashContext.zero } := rfl
@[simp] theorem reset_mem : State.reset.mem = [] := rfl
@[simp] theorem reset_memSize : State.reset.memSize = Config.memSize := rfl
@[simp] theorem reset_lenMode : State.reset.lenMode = .full64 := rfl
@[simp] theorem reset_baseBlock : State.reset.baseBlock = Config.baseBlock := rfl
@[simp] theorem reset_resets : State.reset.resets = 0 := rfl
@[simp] theorem reset_draws : State.reset.draws = 0 := rfl
@[simp] theorem reset_script : State.reset.script = [] := rfl
@[simp] theorem reset_pending : State.reset.pending = [] := rfl
@[simp] theorem reset_readData : State.reset.readData = .none := rfl

/-- Reading the operands sees only the ARG registers. -/
@[simp] theorem arg_memWrite (a : Nat) (v : List Byte) (s : State) (i : Fin 4) : arg (memWrite a v s) i = arg s i := rfl

@[simp] theorem memByte_withResult (s : State) (r : Result) (a : Nat) :
    memByte { s with result := r } a = memByte s a := rfl

@[simp] theorem memRead_withResult (s : State) (r : Result) (a n : Nat) :
    memRead { s with result := r } a n = memRead s a n := rfl

@[simp] theorem readBlock_withResult (s : State) (r : Result) (a : Nat) :
    readBlock { s with result := r } a = readBlock s a := rfl

theorem raise_eq (r : Result) (s : State) : raise r s = .next { s with result := r } := rfl

theorem finish_eq (s : State) : finish s = .next { s with result := .success } := rfl

end Sys2Proof.Machine
end

