-- ==== Sys2Proof/Laws/Memory.lean ====
section
/-! SUPPORT. The laws of the operand memory: a read after a write to the same place gives the value written, a write
leaves every other place alone, and every operation keeps the canonical form and stays inside the addresses written. -/

namespace Sys2Proof.Machine

theorem Memory.wf_iff (m : Memory) : Memory.wf m = true ↔ List.Pairwise (fun x y : Host.Cell => x.1 < y.1) m := by
  simp [Memory.wf, Memory.unlisted]

@[simp] theorem Memory.wf_nil : Memory.wf [] = true := by simp [Memory.wf_iff]

theorem Memory.lookup_write_same (a : Nat) (b : Byte) (m : Memory) :
    Memory.lookup a (Memory.write a b m) = some b := by
  induction m with
  | nil => simp [Memory.write, Memory.lookup]
  | cons c m ih =>
    obtain ⟨x, c⟩ := c
    simp only [Memory.write]
    split_ifs with h1 h2
    · simp [Memory.lookup]
    · simp [Memory.lookup]
    · simp [Memory.lookup, h2, ih]

theorem Memory.lookup_write_other {a x : Nat} (h : x ≠ a) (b : Byte) (m : Memory) :
    Memory.lookup x (Memory.write a b m) = Memory.lookup x m := by
  induction m with
  | nil => simp [Memory.write, Memory.lookup, h]
  | cons c m ih =>
    obtain ⟨y, c⟩ := c
    simp only [Memory.write]
    split_ifs with h1 h2
    · simp [Memory.lookup, h]
    · subst h2
      simp [Memory.lookup, h]
    · simp [Memory.lookup, ih]

theorem Memory.mem_write {a : Nat} {b : Byte} {m : Memory} {c : Host.Cell} (h : c ∈ Memory.write a b m) :
    c = (a, b) ∨ c ∈ m := by
  induction m with
  | nil => simpa [Memory.write] using h
  | cons d m ih =>
    obtain ⟨y, d⟩ := d
    simp only [Memory.write] at h
    split_ifs at h with h1 h2
    · simpa using h
    · rcases List.mem_cons.1 h with h | h
      · exact .inl h
      · exact .inr (List.mem_cons_of_mem _ h)
    · rcases List.mem_cons.1 h with h | h
      · exact .inr (by simp [h])
      · rcases ih h with h | h
        · exact .inl h
        · exact .inr (List.mem_cons_of_mem _ h)

theorem Memory.write_wf {m : Memory} (h : Memory.wf m = true) (a : Nat) (b : Byte) :
    Memory.wf (Memory.write a b m) = true := by
  rw [Memory.wf_iff] at h ⊢
  induction m with
  | nil => simp [Memory.write]
  | cons c m ih =>
    obtain ⟨x, c⟩ := c
    obtain ⟨hx, hm⟩ := List.pairwise_cons.1 h
    simp only [Memory.write]
    split_ifs with h1 h2
    · refine List.pairwise_cons.2 ⟨fun y hy => ?_, h⟩
      rcases List.mem_cons.1 hy with rfl | hy
      · exact h1
      · exact h1.trans (hx y hy)
    · subst h2
      exact List.pairwise_cons.2 ⟨hx, hm⟩
    · refine List.pairwise_cons.2 ⟨fun y hy => ?_, ih hm⟩
      rcases Memory.mem_write hy with rfl | hy
      · show x < a
        omega
      · exact hx y hy

theorem Memory.writeBytes_wf {m : Memory} (h : Memory.wf m = true) (a : Nat) (v : List Byte) :
    Memory.wf (Memory.writeBytes a v m) = true := by
  induction v generalizing a m with
  | nil => exact h
  | cons b v ih => exact ih (Memory.write_wf h a b) (a + 1)

theorem Memory.writeBytes_inside {m : Memory} {n a : Nat} {v : List Byte} (h : ∀ c ∈ m, c.1 < n)
    (hv : v = [] ∨ a + v.length ≤ n) : ∀ c ∈ Memory.writeBytes a v m, c.1 < n := by
  induction v generalizing a m with
  | nil => exact h
  | cons b v ih =>
    have hv' : a + (v.length + 1) ≤ n := by simpa using hv
    refine ih (fun c hc => ?_) (.inr (by omega))
    rcases Memory.mem_write hc with rfl | hc
    · show a < n
      omega
    · exact h c hc

/-- A write of a byte string leaves every address outside it alone. -/
theorem Memory.lookup_writeBytes_outside {x a : Nat} {v : List Byte} (h : x < a ∨ a + v.length ≤ x) (m : Memory) :
    Memory.lookup x (Memory.writeBytes a v m) = Memory.lookup x m := by
  induction v generalizing a m with
  | nil => rfl
  | cons b v ih =>
    have h' : x < a ∨ a + (v.length + 1) ≤ x := by simpa using h
    rw [Memory.writeBytes, ih (by omega), Memory.lookup_write_other (by omega)]

/-- A write of a byte string stores byte `i` at address `a + i`. -/
theorem Memory.lookup_writeBytes_inside {a i : Nat} {v : List Byte} (h : i < v.length) (m : Memory) :
    Memory.lookup (a + i) (Memory.writeBytes a v m) = some v[i] := by
  induction v generalizing a i m with
  | nil => simp at h
  | cons b v ih =>
    cases i with
    | zero =>
      rw [Memory.writeBytes, Memory.lookup_writeBytes_outside (by omega)]
      simpa using Memory.lookup_write_same a b m
    | succ i =>
      have := ih (a := a + 1) (i := i) (by simpa using h) (Memory.write a b m)
      simpa [Memory.writeBytes, Nat.add_assoc, Nat.add_comm 1 i] using this

theorem memByte_memWrite_outside {x a : Nat} {v : List Byte} (h : x < a ∨ a + v.length ≤ x) (s : State) :
    memByte (memWrite a v s) x = memByte s x := by
  simp [memByte, Memory.lookup_writeBytes_outside h]

theorem memByte_memWrite_inside {a i : Nat} {v : List Byte} (h : i < v.length) (s : State) :
    memByte (memWrite a v s) (a + i) = v[i] := by
  simp [memByte, Memory.lookup_writeBytes_inside h]

@[simp] theorem memRead_length (s : State) (a n : Nat) : (memRead s a n).length = n := by simp [memRead]

/-- Reading what was just written gives it back (20_memory.md R63). -/
theorem memRead_memWrite_same (a : Nat) (v : List Byte) (s : State) : memRead (memWrite a v s) a v.length = v := by
  refine List.ext_getElem (by simp) fun i h1 h2 => ?_
  simp only [memRead, List.getElem_map, List.getElem_range]
  exact memByte_memWrite_inside h2 s

/-- Reading outside what was written sees the bytes from before (20_memory.md R63). -/
theorem memRead_memWrite_outside {x n a : Nat} {v : List Byte} (h : x + n ≤ a ∨ a + v.length ≤ x) (s : State) :
    memRead (memWrite a v s) x n = memRead s x n := by
  simp only [memRead]
  refine List.map_congr_left fun i hi => memByte_memWrite_outside ?_ s
  have := List.mem_range.1 hi
  omega

/-- Reads see only the memory and the number of resets (which selects the free power-on bytes). -/
theorem memByte_eq_of {s t : State} (hm : t.mem = s.mem) (hr : t.resets = s.resets) (a : Nat) :
    memByte t a = memByte s a := by
  simp only [memByte, hm, hr]

theorem memRead_eq_of {s t : State} (hm : t.mem = s.mem) (hr : t.resets = s.resets) (a n : Nat) :
    memRead t a n = memRead s a n := by
  simp only [memRead, memByte_eq_of hm hr]

theorem readBlock_eq_of {s t : State} (hm : t.mem = s.mem) (hr : t.resets = s.resets) (a : Nat) :
    readBlock t a = readBlock s a := by
  simp only [readBlock, memByte_eq_of hm hr]

/-- A read sees only the bytes of its region. -/
theorem memRead_congr {s t : State} {a n : Nat} (h : ∀ x, a ≤ x → x < a + n → memByte s x = memByte t x) :
    memRead s a n = memRead t a n := by
  simp only [memRead]
  refine List.map_congr_left fun i hi => h _ (by omega) ?_
  have := List.mem_range.1 hi
  omega

theorem readBlock_toList (s : State) (a : Nat) : (readBlock s a).toList = memRead s a 16 := by
  refine List.ext_getElem (by simp) fun i h1 h2 => ?_
  simp [readBlock, memRead]

theorem readBlock_congr {s t : State} {a : Nat} (h : ∀ x, a ≤ x → x < a + 16 → memByte s x = memByte t x) :
    readBlock s a = readBlock t a := by
  refine Vector.ext fun i hi => ?_
  simpa [readBlock] using h (a + i) (by omega) (by omega)

theorem memByte_writeBlock_outside {x a : Nat} (h : x < a ∨ a + 16 ≤ x) (v : Block) (s : State) :
    memByte (writeBlock a v s) x = memByte s x :=
  memByte_memWrite_outside (by simpa using h) s

theorem readBlock_writeBlock_same (a : Nat) (v : Block) (s : State) : readBlock (writeBlock a v s) a = v := by
  refine Vector.ext fun i hi => ?_
  have := memByte_memWrite_inside (a := a) (i := i) (v := v.toList) (by simpa using hi) s
  simpa [readBlock, writeBlock] using this

theorem readBlock_writeBlock_outside {x a : Nat} (h : x + 16 ≤ a ∨ a + 16 ≤ x) (v : Block) (s : State) :
    readBlock (writeBlock a v s) x = readBlock s x :=
  readBlock_congr fun y h1 h2 => memByte_writeBlock_outside (by omega) v s

/-- The region test says what 20_memory.md R53 says. -/
theorem validRegion_iff (s : State) (p n : Nat) :
    validRegion s p n = true ↔ n = 0 ∨ (1 ≤ p ∧ p + n ≤ s.memSize) := by
  simp [validRegion]

end Sys2Proof.Machine
end

