-- ==== Sys2Proof/Laws/Commands.lean ====
section
/-! SUPPORT. One inversion lemma per meaning: what the next state is when the meaning answers one. Later proofs cite these
instead of unfolding a meaning. -/

namespace Sys2Proof.Machine

@[simp] theorem isNull_iff (p : Nat) : isNull p = true ↔ p = 0 := by simp [isNull]

@[simp] theorem isActive_iff (s : State) : isActive s = true ↔ s.uctx.phase = .active := by simp [isActive]

@[simp] theorem guardTaken_iff (s : State) : guardTaken s = true ↔ 64 ≤ s.uctx.ctx.pendLen.val := by simp [guardTaken]

theorem validRegion_iff_regionValid (s : State) (p n : Nat) :
    validRegion s p n = true ↔ RegionValid s.memSize p n := validRegion_iff s p n

/-- SHA_INIT has one outcome. -/
theorem execShaInit_cases {s t : State} (h : execShaInit s = .next t) :
    t = { s with result := .success, uctx := { phase := .active, ctx := initContext } } := by
  simpa [execShaInit, finish] using h.symm

/-- SHA_UPDATE fails without an effect, takes the guard, or absorbs its region. -/
theorem execShaUpdate_cases {s t : State} (h : execShaUpdate s = .next t) :
    (t = { s with result := .invalidContext } ∧ s.uctx.phase ≠ .active) ∨
    (t = { s with result := .invalidParameter } ∧ s.uctx.phase = .active ∧
      ((0 < arg s 1 ∧ arg s 0 = 0) ∨ 2 ^ 61 - 1 < s.uctx.ctx.count.toNat + arg s 1)) ∨
    (t = { s with result := .busError } ∧ s.uctx.phase = .active ∧ ¬ (0 < arg s 1 ∧ arg s 0 = 0) ∧
      s.uctx.ctx.count.toNat + arg s 1 ≤ 2 ^ 61 - 1 ∧ ¬ RegionValid s.memSize (arg s 0) (arg s 1)) ∨
    (t = { s with result := .success } ∧ s.uctx.phase = .active ∧ ¬ (0 < arg s 1 ∧ arg s 0 = 0) ∧
      s.uctx.ctx.count.toNat + arg s 1 ≤ 2 ^ 61 - 1 ∧ RegionValid s.memSize (arg s 0) (arg s 1) ∧
      64 ≤ s.uctx.ctx.pendLen.val) ∨
    (Ready .shaUpdate s ∧
      t = { s with
        result := .success
        uctx := { s.uctx with ctx := absorb s.uctx.ctx (memRead s (arg s 0) (arg s 1)) } }) := by
  simp only [execShaUpdate, raise, finish, Bool.not_eq_true', ← Bool.not_eq_true, isActive_iff, Bool.and_eq_true,
    decide_eq_true_eq, isNull_iff, validRegion_iff_regionValid, guardTaken_iff] at h
  by_cases h1 : s.uctx.phase = .active
  swap
  · exact .inl ⟨by simpa [h1] using h.symm, h1⟩
  by_cases h2 : 0 < arg s 1 ∧ arg s 0 = 0
  · exact .inr (.inl ⟨by simpa [h1, h2] using h.symm, h1, .inl h2⟩)
  have hm : maxMsgBytes = 2 ^ 61 - 1 := rfl
  by_cases h3 : maxMsgBytes < s.uctx.ctx.count.toNat + arg s 1
  · exact .inr (.inl ⟨by rw [if_neg (by simp [h1]), if_neg h2, if_pos h3] at h; simpa using h.symm, h1, .inr (hm ▸ h3)⟩)
  rw [if_neg (by simp [h1]), if_neg h2, if_neg h3] at h
  by_cases h4 : RegionValid s.memSize (arg s 0) (arg s 1)
  swap
  · exact .inr (.inr (.inl ⟨by rw [if_pos h4] at h; simpa using h.symm, h1, h2, hm ▸ not_lt.1 h3, h4⟩))
  rw [if_neg (not_not.2 h4)] at h
  by_cases h5 : 64 ≤ s.uctx.ctx.pendLen.val
  · exact .inr (.inr (.inr (.inl ⟨by rw [if_pos h5] at h; simpa using h.symm, h1, h2, hm ▸ not_lt.1 h3, h4, h5⟩)))
  · exact .inr (.inr (.inr (.inr ⟨⟨h1, by omega, hm ▸ not_lt.1 h3, h4, not_le.1 h5⟩,
      by rw [if_neg h5] at h; simpa using h.symm⟩)))

/-- SHA_FINAL fails without an effect, takes the guard, or writes the digest and finalises the context. -/
theorem execShaFinal_cases {s t : State} (h : execShaFinal s = .next t) :
    (t = { s with result := .invalidContext } ∧ s.uctx.phase ≠ .active) ∨
    (t = { s with result := .invalidParameter } ∧ s.uctx.phase = .active ∧ arg s 0 = 0) ∨
    (t = { s with result := .busError } ∧ s.uctx.phase = .active ∧ arg s 0 ≠ 0 ∧
      ¬ RegionValid s.memSize (arg s 0) 32) ∨
    (t = { s with result := .success } ∧ s.uctx.phase = .active ∧ arg s 0 ≠ 0 ∧
      RegionValid s.memSize (arg s 0) 32 ∧ 64 ≤ s.uctx.ctx.pendLen.val) ∨
    (Ready .shaFinal s ∧
      t = { s with
        result := .success
        mem := Memory.writeBytes (arg s 0) (finalizeDigest s.lenMode s.uctx.ctx) s.mem
        uctx := { phase := .finalized, ctx := freeContext s.draws }
        draws := s.draws + 1 }) := by
  simp only [execShaFinal, raise, finish, Bool.not_eq_true', ← Bool.not_eq_true, isActive_iff, isNull_iff,
    validRegion_iff_regionValid, guardTaken_iff] at h
  by_cases h1 : s.uctx.phase = .active
  swap
  · exact .inl ⟨by rw [if_pos h1] at h; simpa using h.symm, h1⟩
  rw [if_neg (not_not.2 h1)] at h
  by_cases h2 : arg s 0 = 0
  · exact .inr (.inl ⟨by rw [if_pos h2] at h; simpa using h.symm, h1, h2⟩)
  rw [if_neg h2] at h
  by_cases h3 : RegionValid s.memSize (arg s 0) 32
  swap
  · exact .inr (.inr (.inl ⟨by rw [if_pos h3] at h; simpa using h.symm, h1, h2, h3⟩))
  rw [if_neg (not_not.2 h3)] at h
  by_cases h4 : 64 ≤ s.uctx.ctx.pendLen.val
  · exact .inr (.inr (.inr (.inl ⟨by rw [if_pos h4] at h; simpa using h.symm, h1, h2, h3, h4⟩)))
  · exact .inr (.inr (.inr (.inr ⟨⟨h1, h2, h3, not_le.1 h4⟩, by rw [if_neg h4] at h; simpa using h.symm⟩)))

/-- HMAC fails without an effect or writes the MAC. -/
theorem execHmac_cases {s t : State} (h : execHmac s = .next t) :
    (t = { s with result := .invalidParameter } ∧ (arg s 0 = 0 ∨ (arg s 1 = 0 ∧ 0 < arg s 2) ∨ arg s 3 = 0)) ∨
    (t = { s with result := .busError } ∧ ¬ (arg s 0 = 0 ∨ (arg s 1 = 0 ∧ 0 < arg s 2) ∨ arg s 3 = 0) ∧
      ¬ (RegionValid s.memSize (arg s 0) 16 ∧ RegionValid s.memSize (arg s 1) (arg s 2) ∧
        RegionValid s.memSize (arg s 3) 32)) ∨
    (Ready .hmac s ∧
      t = { s with
        result := .success
        mem := Memory.writeBytes (arg s 3)
          (hmacSha256 s.lenMode (memRead s (arg s 0) 16) (memRead s (arg s 1) (arg s 2))) s.mem }) := by
  simp only [execHmac, raise, finish, Bool.not_eq_true', ← Bool.not_eq_true, isNull_iff, Bool.and_eq_true,
    decide_eq_true_eq, validRegion_iff_regionValid, and_assoc] at h
  by_cases h1 : arg s 0 = 0
  · exact .inl ⟨by rw [if_pos h1] at h; simpa using h.symm, .inl h1⟩
  rw [if_neg h1] at h
  by_cases h2 : arg s 1 = 0 ∧ 0 < arg s 2
  · exact .inl ⟨by rw [if_pos h2] at h; simpa using h.symm, .inr (.inl h2)⟩
  rw [if_neg h2] at h
  by_cases h3 : arg s 3 = 0
  · exact .inl ⟨by rw [if_pos h3] at h; simpa using h.symm, .inr (.inr h3)⟩
  rw [if_neg h3] at h
  by_cases h4 : RegionValid s.memSize (arg s 0) 16 ∧ RegionValid s.memSize (arg s 1) (arg s 2) ∧
    RegionValid s.memSize (arg s 3) 32
  · rw [if_neg (not_not.2 h4)] at h
    exact .inr (.inr ⟨⟨h1, by omega, h3, h4.1, h4.2.1, h4.2.2⟩, by simpa using h.symm⟩)
  · exact .inr (.inl ⟨by rw [if_pos h4] at h; simpa using h.symm, by simp only [h1, h2, h3, or_self, not_false_eq_true], h4⟩)

/-- KDF_DERIVE fails without an effect or writes the key material. -/
theorem execKdfDerive_cases {s t : State} (h : execKdfDerive s = .next t) :
    (t = { s with result := .invalidParameter } ∧
      (arg s 0 = 0 ∨ arg s 1 = 0 ∨ arg s 2 = 0 ∨ arg s 3 = 0)) ∨
    (t = { s with result := .busError } ∧ ¬ (arg s 0 = 0 ∨ arg s 1 = 0 ∨ arg s 2 = 0 ∨ arg s 3 = 0) ∧
      ¬ (RegionValid s.memSize (arg s 0) 16 ∧ RegionValid s.memSize (arg s 2) 16 ∧
        RegionValid s.memSize (arg s 3) 64)) ∨
    (Ready .kdfDerive s ∧
      t = { s with
        result := .success
        mem := Memory.writeBytes (arg s 3)
          (kdfMaterial Config.encrypt s.lenMode (readBlock s (arg s 0)) (readBlock s (arg s 2))) s.mem }) := by
  simp only [execKdfDerive, raise, finish, Bool.not_eq_true', ← Bool.not_eq_true, isNull_iff, Bool.and_eq_true,
    Bool.or_eq_true, validRegion_iff_regionValid, and_assoc, or_assoc] at h
  by_cases h1 : arg s 0 = 0 ∨ arg s 1 = 0 ∨ arg s 2 = 0
  · exact .inl ⟨by rw [if_pos h1] at h; simpa using h.symm, by
      rcases h1 with h1 | h1 | h1
      · exact .inl h1
      · exact .inr (.inl h1)
      · exact .inr (.inr (.inl h1))⟩
  rw [if_neg h1] at h
  by_cases h2 : arg s 3 = 0
  · exact .inl ⟨by rw [if_pos h2] at h; simpa using h.symm, .inr (.inr (.inr h2))⟩
  rw [if_neg h2] at h
  simp only [not_or] at h1
  by_cases h3 : RegionValid s.memSize (arg s 0) 16 ∧ RegionValid s.memSize (arg s 2) 16 ∧
    RegionValid s.memSize (arg s 3) 64
  · rw [if_neg (not_not.2 h3)] at h
    exact .inr (.inr ⟨⟨h1.1, h1.2.1, h1.2.2, h2, h3.1, h3.2.1, h3.2.2⟩, by simpa using h.symm⟩)
  · exact .inr (.inl ⟨by rw [if_pos h3] at h; simpa using h.symm, by simp only [h1, h2, or_self, not_false_eq_true], h3⟩)

/-- The shared checks of the two CBC commands. -/
theorem cbcFailure_cases (s : State) :
    (cbcFailure s = some .invalidParameter ∧
      (arg s 0 = 0 ∨ arg s 1 = 0 ∨ arg s 2 = 0 ∨ arg s 3 % 16 ≠ 0)) ∨
    (cbcFailure s = some .busError ∧ ¬ (arg s 0 = 0 ∨ arg s 1 = 0 ∨ arg s 2 = 0 ∨ arg s 3 % 16 ≠ 0) ∧
      ¬ (RegionValid s.memSize (arg s 0) 16 ∧ RegionValid s.memSize (arg s 1) 16 ∧
        RegionValid s.memSize (arg s 2) (arg s 3))) ∨
    (cbcFailure s = none ∧ Ready .cbcCipher s) := by
  simp only [cbcFailure, Bool.not_eq_true', ← Bool.not_eq_true, isNull_iff, Bool.and_eq_true, Bool.or_eq_true,
    bne_iff_ne, validRegion_iff_regionValid, and_assoc, or_assoc]
  by_cases h1 : arg s 0 = 0 ∨ arg s 1 = 0 ∨ arg s 2 = 0
  · exact .inl ⟨if_pos h1, by
      rcases h1 with h1 | h1 | h1
      · exact .inl h1
      · exact .inr (.inl h1)
      · exact .inr (.inr (.inl h1))⟩
  rw [if_neg h1]
  by_cases h2 : arg s 3 % 16 = 0
  swap
  · exact .inl ⟨if_pos h2, .inr (.inr (.inr h2))⟩
  rw [if_neg (not_not.2 h2)]
  simp only [not_or] at h1
  by_cases h3 : RegionValid s.memSize (arg s 0) 16 ∧ RegionValid s.memSize (arg s 1) 16 ∧
    RegionValid s.memSize (arg s 2) (arg s 3)
  · exact .inr (.inr ⟨if_neg (not_not.2 h3), h1.1, h1.2.1, h1.2.2, h2, h3.1, h3.2.1, h3.2.2⟩)
  · exact .inr (.inl ⟨if_pos h3, by simp only [h1, h2, or_self, ne_eq, not_true_eq_false, not_false_eq_true], h3⟩)

/-- The encryption loop changes memory only. -/
theorem cbcEncryptLoop_frame (enc : Block → Block) (n a : Nat) (chain : Block) (s : State) :
    cbcEncryptLoop enc n a chain s = { s with mem := (cbcEncryptLoop enc n a chain s).mem } := by
  induction n generalizing a chain s with
  | zero => rfl
  | succ n ih =>
    rw [cbcEncryptLoop, ih]
    rfl

/-- The decryption loop changes memory only. -/
theorem cbcDecryptLoop_frame (dec : Block → Block) (n a : Nat) (chain : Block) (s : State) :
    cbcDecryptLoop dec n a chain s = { s with mem := (cbcDecryptLoop dec n a chain s).mem } := by
  induction n generalizing a chain s with
  | zero => rfl
  | succ n ih =>
    rw [cbcDecryptLoop, ih]
    rfl

/-- The encryption loop leaves every byte outside its blocks alone. -/
theorem memByte_cbcEncryptLoop_outside (enc : Block → Block) (n : Nat) {a x : Nat} (chain : Block) (s : State)
    (h : x < a ∨ a + 16 * n ≤ x) : memByte (cbcEncryptLoop enc n a chain s) x = memByte s x := by
  induction n generalizing a chain s with
  | zero => rfl
  | succ n ih => rw [cbcEncryptLoop, ih _ _ (by omega), memByte_writeBlock_outside (by omega)]

/-- The decryption loop leaves every byte outside its blocks alone. -/
theorem memByte_cbcDecryptLoop_outside (dec : Block → Block) (n : Nat) {a x : Nat} (chain : Block) (s : State)
    (h : x < a ∨ a + 16 * n ≤ x) : memByte (cbcDecryptLoop dec n a chain s) x = memByte s x := by
  induction n generalizing a chain s with
  | zero => rfl
  | succ n ih => rw [cbcDecryptLoop, ih _ _ (by omega), memByte_writeBlock_outside (by omega)]

/-- The loops keep the canonical form of memory, and stay inside it. -/
theorem cbcEncryptLoop_wf (enc : Block → Block) (n a : Nat) (chain : Block) {s : State}
    (h : Memory.wf s.mem = true) : Memory.wf (cbcEncryptLoop enc n a chain s).mem = true := by
  induction n generalizing a chain s with
  | zero => exact h
  | succ n ih => exact ih _ _ (Memory.writeBytes_wf h _ _)

theorem cbcDecryptLoop_wf (dec : Block → Block) (n a : Nat) (chain : Block) {s : State}
    (h : Memory.wf s.mem = true) : Memory.wf (cbcDecryptLoop dec n a chain s).mem = true := by
  induction n generalizing a chain s with
  | zero => exact h
  | succ n ih => exact ih _ _ (Memory.writeBytes_wf h _ _)

theorem cbcEncryptLoop_inside (enc : Block → Block) (n a : Nat) (chain : Block) {s : State} {lim : Nat}
    (h : ∀ c ∈ s.mem, c.1 < lim) (ha : n = 0 ∨ a + 16 * n ≤ lim) :
    ∀ c ∈ (cbcEncryptLoop enc n a chain s).mem, c.1 < lim := by
  induction n generalizing a chain s with
  | zero => exact h
  | succ n ih => exact ih _ _ (Memory.writeBytes_inside h (.inr (by simp; omega))) (by omega)

theorem cbcDecryptLoop_inside (dec : Block → Block) (n a : Nat) (chain : Block) {s : State} {lim : Nat}
    (h : ∀ c ∈ s.mem, c.1 < lim) (ha : n = 0 ∨ a + 16 * n ≤ lim) :
    ∀ c ∈ (cbcDecryptLoop dec n a chain s).mem, c.1 < lim := by
  induction n generalizing a chain s with
  | zero => exact h
  | succ n ih => exact ih _ _ (Memory.writeBytes_inside h (.inr (by simp; omega))) (by omega)

/-- CBC_CIPHER fails without an effect or encrypts its buffer. -/
theorem execCbcCipher_cases {s t : State} (h : execCbcCipher s = .next t) :
    (t = { s with result := .invalidParameter } ∧
      (arg s 0 = 0 ∨ arg s 1 = 0 ∨ arg s 2 = 0 ∨ arg s 3 % 16 ≠ 0)) ∨
    (t = { s with result := .busError } ∧ ¬ (arg s 0 = 0 ∨ arg s 1 = 0 ∨ arg s 2 = 0 ∨ arg s 3 % 16 ≠ 0) ∧
      ¬ (RegionValid s.memSize (arg s 0) 16 ∧ RegionValid s.memSize (arg s 1) 16 ∧
        RegionValid s.memSize (arg s 2) (arg s 3))) ∨
    (Ready .cbcCipher s ∧
      t = { s with
        result := .success
        mem := (cbcEncryptLoop (Config.encrypt (readBlock s (arg s 0))) (arg s 3 / 16) (arg s 2)
          (readBlock s (arg s 1)) s).mem }) := by
  rcases cbcFailure_cases s with ⟨hf, hc⟩ | ⟨hf, hc⟩ | ⟨hf, hc⟩ <;>
    simp only [execCbcCipher, hf, raise, finish, Host.Outcome.next.injEq] at h
  · exact .inl ⟨h.symm, hc⟩
  · exact .inr (.inl ⟨h.symm, hc⟩)
  · rw [cbcEncryptLoop_frame] at h
    exact .inr (.inr ⟨hc, h.symm⟩)

/-- CBC_DECIPHER fails without an effect or decrypts its buffer. -/
theorem execCbcDecipher_cases {s t : State} (h : execCbcDecipher s = .next t) :
    (t = { s with result := .invalidParameter } ∧
      (arg s 0 = 0 ∨ arg s 1 = 0 ∨ arg s 2 = 0 ∨ arg s 3 % 16 ≠ 0)) ∨
    (t = { s with result := .busError } ∧ ¬ (arg s 0 = 0 ∨ arg s 1 = 0 ∨ arg s 2 = 0 ∨ arg s 3 % 16 ≠ 0) ∧
      ¬ (RegionValid s.memSize (arg s 0) 16 ∧ RegionValid s.memSize (arg s 1) 16 ∧
        RegionValid s.memSize (arg s 2) (arg s 3))) ∨
    (Ready .cbcDecipher s ∧
      t = { s with
        result := .success
        mem := (cbcDecryptLoop (Config.decrypt (readBlock s (arg s 0))) (arg s 3 / 16) (arg s 2)
          (readBlock s (arg s 1)) s).mem }) := by
  rcases cbcFailure_cases s with ⟨hf, hc⟩ | ⟨hf, hc⟩ | ⟨hf, hc⟩ <;>
    simp only [execCbcDecipher, hf, raise, finish, Host.Outcome.next.injEq] at h
  · exact .inl ⟨h.symm, hc⟩
  · exact .inr (.inl ⟨h.symm, hc⟩)
  · rw [cbcDecryptLoop_frame] at h
    exact .inr (.inr ⟨hc, h.symm⟩)

end Sys2Proof.Machine
end

