-- ==== Sys2Proof/Laws/Hash.lean ====
section
/-! SUPPORT. Lengths of the byte strings the hash blocks write. -/

namespace Sys2Proof.Machine

@[simp] theorem be32_length (w : Word) : (be32 w).length = 4 := rfl

@[simp] theorem be64_length (v : BitVec 64) : (be64 v).length = 8 := rfl

@[simp] theorem digestBytes_length (h : HashWords) : (digestBytes h).length = 32 := rfl

@[simp] theorem finalizeDigest_length (mode : LenMode) (c : HashContext) : (finalizeDigest mode c).length = 32 := rfl

@[simp] theorem hmacSha256_length (mode : LenMode) (k m : List Byte) : (hmacSha256 mode k m).length = 32 := rfl

@[simp] theorem kdfMaterial_length (enc : Block → Block → Block) (mode : LenMode) (a r : Block) :
    (kdfMaterial enc mode a r).length = 64 := rfl

@[simp] theorem absorb_nil_words (c : HashContext) : absorb c [] = c := by
  simp [absorb]

end Sys2Proof.Machine
end

