-- ==== Sys2Proof/Laws/Host.lean ====
section
/-! SUPPORT. What the host's accesses and one step can do, said once: later proofs cite these and unfold no access. -/

namespace Sys2Proof.Machine

/-- A host write inside `M` is the engine's memory write. -/
theorem hostMemWrite_inside {a : Nat} {v : List Byte} {s : State} (h : a + v.length ≤ s.memSize) :
    hostMemWrite a v s = memWrite a v s := by
  rw [hostMemWrite, List.take_of_length_le (by omega)]

/-- A host write leaves every byte it does not name alone, and every address that is no byte of `M`. -/
theorem memByte_hostMemWrite_outside {x a : Nat} {v : List Byte} {s : State}
    (h : x < a ∨ a + v.length ≤ x ∨ s.memSize ≤ x) : memByte (hostMemWrite a v s) x = memByte s x := by
  refine memByte_memWrite_outside ?_ s
  rw [List.length_take]
  omega

/-- A host write gives the bytes of `M` it names their values. -/
theorem memByte_hostMemWrite_byte {a i : Nat} {v : List Byte} {s : State} (h : i < v.length) (hm : a + i < s.memSize) :
    memByte (hostMemWrite a v s) (a + i) = v[i] := by
  rw [hostMemWrite, memByte_memWrite_inside (by rw [List.length_take]; omega), List.getElem_take]

theorem hostMemWrite_wf {a : Nat} {v : List Byte} {s : State} (h : Memory.wf s.mem = true) :
    Memory.wf (hostMemWrite a v s).mem = true := Memory.writeBytes_wf h _ _

theorem hostMemWrite_mem_inside {a : Nat} {v : List Byte} {s : State} (h : ∀ c ∈ s.mem, c.1 < s.memSize) :
    ∀ c ∈ (hostMemWrite a v s).mem, c.1 < s.memSize := by
  refine Memory.writeBytes_inside h ?_
  by_cases hz : s.memSize ≤ a
  · left
    simp [Nat.sub_eq_zero_of_le hz]
  · right
    rw [List.length_take]
    omega

/-- A host read inside `M` returns the bytes of `M`. -/
theorem hostMemRead_inside {a n : Nat} {s : State} (h : a + n ≤ s.memSize) :
    hostMemRead a n s = { s with readData := .memory (memRead s a n), draws := s.draws + 1 } := by
  have same : ((List.range n).map fun i => hostByte s (a + i)) = memRead s a n := by
    refine List.map_congr_left fun i hi => ?_
    rw [List.mem_range] at hi
    exact if_pos (by omega)
  rw [hostMemRead, same]

/-- Where a place is depends on nothing but `BASE`. -/
@[simp] theorem placeOffset_withPending (s : State) (p : List Access) (place : Place) :
    placeOffset { s with pending := p } place = placeOffset s place := rfl

@[simp] theorem accessRefusal_withPending (s : State) (p : List Access) (place : Place) (width : Nat) :
    accessRefusal { s with pending := p } place width = accessRefusal s place width := rfl

/-- Of the accesses that begin in the block, exactly those of another width or alignment are refused. -/
theorem accessRefusal_eq_none_iff {s : State} {place : Place} {o : Nat} (h : placeOffset s place = some o) (width : Nat) :
    accessRefusal s place width = none ↔ width = 32 ∧ o % 4 = 0 := by
  by_cases hw : width = 32 <;> by_cases ho : o % 4 = 0 <;>
    simp [accessRefusal, h, accessWidthOk, offsetAligned, hw, ho]

/-- Of the accesses that begin outside the block, exactly those that reach into it are refused. -/
theorem accessRefusal_outside {s : State} {place : Place} (h : placeOffset s place = none) (width : Nat) :
    accessRefusal s place width = none ↔ reachesFromBelow s place width = false := by
  cases place with
  | reg o => simp [accessRefusal, h, reachesFromBelow]
  | bus a => simp [accessRefusal, h]

/-- An access that reaches the block from below is refused by that name. -/
theorem accessRefusal_fromBelow {s : State} {a width : Nat} (h : reachesFromBelow s (.bus a) width = true) :
    accessRefusal s (.bus a) width = some (.registerAccessFromBelow a width) := by
  have below : a < busBase s := (of_decide_eq_true h).1
  have outside : placeOffset s (.bus a) = none := if_neg (by omega)
  simp only [accessRefusal, outside, h, if_true]

/-- Only a wide or misaligned access reaches the block from below. -/
theorem reachesFromBelow_undefined {s : State} {a width : Nat} (h : reachesFromBelow s (.bus a) width = true) :
    width ≠ 32 ∨ a % 4 ≠ 0 := by
  have reaches := of_decide_eq_true h
  simp only [busBase] at reaches
  omega

/-- A step on a write the block accepts is the write of the register. -/
theorem step_regWrite {s : State} {place : Place} {o : Nat} {w : Word} {rest : List Access}
    (hp : s.pending = .regWrite place 32 w :: rest) (ho : placeOffset s place = some o) (ha : o % 4 = 0) :
    step s = writeRegister o w { s with pending := rest } := by
  simp only [step, hostStep, hp, hostAccess, hostRegWrite, placeOffset_withPending,
    accessRefusal_withPending, ho, (accessRefusal_eq_none_iff ho 32).2 ⟨rfl, ha⟩]

/-- A step on a read the block accepts returns the register. -/
theorem step_regRead {s : State} {place : Place} {o : Nat} {rest : List Access}
    (hp : s.pending = .regRead place 32 :: rest) (ho : placeOffset s place = some o) (ha : o % 4 = 0) :
    step s = .next { s with pending := rest, readData := .register (readRegister o { s with pending := rest }) } := by
  simp only [step, hostStep, hp, hostAccess, hostRegRead, placeOffset_withPending,
    accessRefusal_withPending, ho, (accessRefusal_eq_none_iff ho 32).2 ⟨rfl, ha⟩]

/-- A write at an offset of the block other than CMD changes nothing but the ARG registers. -/
theorem writeRegister_cases {o : Nat} {w : Word} {s t : State} (h : writeRegister o w s = .next t) :
    (o = 0x00 ∧ writeCommand w s = .next t) ∨ t = { s with args := t.args } := by
  unfold writeRegister at h
  split at h
  · exact .inl ⟨rfl, h⟩
  all_goals
    cases h
    exact .inr rfl

/-- Everything a step can do: wait; write CMD; be reset; write `M`; or else change only ARG registers and the model's own
fields. -/
theorem step_cases {s t : State} (h : step s = .next t) :
    (s.pending = [] ∧ t = s) ∨
    (∃ rest place w, s.pending = .regWrite place 32 w :: rest ∧ placeOffset s place = some 0x00 ∧
      writeCommand w { s with pending := rest } = .next t) ∨
    (∃ rest, s.pending = .platformReset :: rest ∧ t = resetEngine { s with pending := rest }) ∨
    (∃ rest a v, s.pending = .memWrite a v :: rest ∧ t = hostMemWrite a v { s with pending := rest }) ∨
    t = { s with args := t.args, pending := t.pending, readData := t.readData, draws := t.draws } := by
  rcases hp : s.pending with _ | ⟨x, rest⟩
  · simp only [step, hostStep, hp, Host.Outcome.next.injEq] at h
    exact .inl ⟨rfl, h.symm⟩
  simp only [step, hostStep, hp] at h
  cases x with
  | regWrite place width w =>
    simp only [hostAccess, hostRegWrite] at h
    split at h
    · cases h
    rename_i hr
    split at h
    rotate_left
    · cases h
      exact .inr (.inr (.inr (.inr rfl)))
    rename_i o ho
    obtain ⟨rfl, -⟩ := (accessRefusal_eq_none_iff ho width).1 hr
    rcases writeRegister_cases h with ⟨rfl, hc⟩ | ht
    · exact .inr (.inl ⟨rest, place, w, rfl, ho, hc⟩)
    · rw [ht]
      exact .inr (.inr (.inr (.inr rfl)))
  | regRead place width =>
    simp only [hostAccess, hostRegRead] at h
    split at h
    · cases h
    split at h <;>
    · cases h
      exact .inr (.inr (.inr (.inr rfl)))
  | memWrite a v =>
    cases h
    exact .inr (.inr (.inr (.inl ⟨rest, a, v, rfl, rfl⟩)))
  | memRead a n =>
    cases h
    exact .inr (.inr (.inr (.inr rfl)))
  | branchIfFailed t' =>
    cases h
    exact .inr (.inr (.inr (.inr rfl)))
  | jump t' =>
    cases h
    exact .inr (.inr (.inr (.inr rfl)))
  | platformReset =>
    cases h
    exact .inr (.inr (.inl ⟨rest, rfl, rfl⟩))

end Sys2Proof.Machine
end

