-- ==== Sys2Proof/Laws/PerInstr.lean ====
section
/-! SUPPORT. Statements made per command: a family `F` here has one lemma per constructor of Instr. -/

/-- The command's word is well-formed (30_encoding.md R70, R72), the table-word decoder reads the command from it, and
its RSVD field adds nothing to its OPCODE. -/
def Sys2Proof.Laws.EncodedWordWellFormed.Statement (i : Sys2Proof.Instr) : Prop :=
  Sys2Proof.commandWordWf (Sys2Proof.encode i) = true ∧
  Sys2Proof.decodeTableWord 32 (Sys2Proof.encode i).toNat = some i ∧
  (Sys2Proof.encode i).toNat = (Sys2Proof.opcodeField (Sys2Proof.encode i)).toNat

namespace Sys2Proof.Laws.EncodedWordWellFormed

theorem shaInit : Statement .shaInit := by unfold Statement; decide

theorem shaUpdate : Statement .shaUpdate := by unfold Statement; decide

theorem shaFinal : Statement .shaFinal := by unfold Statement; decide

theorem hmac : Statement .hmac := by unfold Statement; decide

theorem cbcCipher : Statement .cbcCipher := by unfold Statement; decide

theorem cbcDecipher : Statement .cbcDecipher := by unfold Statement; decide

theorem kdfDerive : Statement .kdfDerive := by unfold Statement; decide

end Sys2Proof.Laws.EncodedWordWellFormed
end

