-- ==== Sys2Proof/Tests/Aes.lean ====
section
/-! SUPPORT. AES-128 (FIPS 197), for the tests only: the identity the spec gives the block cipher (00_scope.md R12). The
model does not use it (log 17, PRESUMED). A state is 16 bytes, column by column, byte `i` being AES byte `in_i`. -/

namespace Sys2Proof.Tests.Aes

open Sys2Proof.Machine

/-- The rows of the S-box, FIPS 197 figure 7: row `r` holds the 16 bytes of the inputs `16 * r` upward. -/
def sboxRows : List Nat :=
  [0x637c777bf26b6fc53001672bfed7ab76, 0xca82c97dfa5947f0add4a2af9ca472c0,
   0xb7fd9326363ff7cc34a5e5f171d83115, 0x04c723c31896059a071280e2eb27b275,
   0x09832c1a1b6e5aa0523bd6b329e32f84, 0x53d100ed20fcb15b6acbbe394a4c58cf,
   0xd0efaafb434d338545f9027f503c9fa8, 0x51a3408f929d38f5bcb6da2110fff3d2,
   0xcd0c13ec5f974417c4a77e3d645d1973, 0x60814fdc222a908846eeb814de5e0bdb,
   0xe0323a0a4906245cc2d3ac629195e479, 0xe7c8376d8dd54ea96c56f4ea657aae08,
   0xba78252e1ca6b4c6e8dd741f4bbd8b8a, 0x703eb5664803f60e613557b986c11d9e,
   0xe1f8981169d98e949b1e87e9ce5528df, 0x8ca1890dbfe6426841992d0fb054bb16]

/-- The rows of the inverse S-box, FIPS 197 figure 14. -/
def invSboxRows : List Nat :=
  [0x52096ad53036a538bf40a39e81f3d7fb, 0x7ce339829b2fff87348e4344c4dee9cb,
   0x547b9432a6c2233dee4c950b42fac34e, 0x082ea16628d924b2765ba2496d8bd125,
   0x72f8f66486689816d4a45ccc5d65b692, 0x6c704850fdedb9da5e154657a78d9d84,
   0x90d8ab008cbcd30af7e45805b8b34506, 0xd02c1e8fca3f0f02c1afbd0301138a6b,
   0x3a9111414f67dcea97f2cfcef0b4e673, 0x96ac7422e7ad3585e2f937e81c75df6e,
   0x47f11a711d29c5896fb7620eaa18be1b, 0xfc563e4bc6d279209adbc0fe78cd5af4,
   0x1fdda8338807c731b11210592780ec5f, 0x60517fa919b54a0d2de57a9f93c99cef,
   0xa0e03b4dae2af5b0c8ebbb3c83539961, 0x172b047eba77d626e169146355210c7d]

def lookupByte (rows : List Nat) (x : Byte) : Byte :=
  BitVec.ofNat 8 (rows.getD (x.toNat / 16) 0 >>> (8 * (15 - x.toNat % 16)))

def xtime (x : Byte) : Byte := x <<< 1 ^^^ (if x.msb then 0x1b else 0)

/-- A product in GF(2^8) with a constant below 16. -/
def times (c : Nat) (x : Byte) : Byte :=
  (if c.testBit 0 then x else 0) ^^^ (if c.testBit 1 then xtime x else 0) ^^^
  (if c.testBit 2 then xtime (xtime x) else 0) ^^^ (if c.testBit 3 then xtime (xtime (xtime x)) else 0)

/-- One word of the key schedule: `prev` is the word before it, `back` the word four before it. -/
def nextKeyWord (i : Nat) (prev back : List Byte) : List Byte :=
  let rcon : List Byte := [0x01, 0x02, 0x04, 0x08, 0x10, 0x20, 0x40, 0x80, 0x1b, 0x36]
  let mixed :=
    if i % 4 = 0 then
      List.zipWith (· ^^^ ·) ((prev.rotateLeft 1).map (lookupByte sboxRows)) [rcon.getD (i / 4 - 1) 0, 0, 0, 0]
    else prev
  List.zipWith (· ^^^ ·) back mixed

/-- The key schedule, the latest word first. -/
def keyWords (key : List Byte) : List (List Byte) :=
  (List.range 40).foldl (fun ws i => nextKeyWord (i + 4) (ws.getD 0 []) (ws.getD 3 []) :: ws)
    [(key.drop 12).take 4, (key.drop 8).take 4, (key.drop 4).take 4, key.take 4]

/-- The eleven round keys, the first first. -/
def roundKeys (key : List Byte) : List (List Byte) :=
  let ws := (keyWords key).reverse
  (List.range 11).map fun r => ((ws.drop (4 * r)).take 4).flatten

def addKey (s k : List Byte) : List Byte := List.zipWith (· ^^^ ·) s k

/-- Rotate row `r` left by `n * r` places (1 for ShiftRows, 3 for its inverse). -/
def shiftRows (n : Nat) (s : List Byte) : List Byte :=
  (List.range 16).map fun i => s.getD ((i + 4 * n * (i % 4)) % 16) 0

/-- Multiply every column by the circulant matrix whose first row is `row`. -/
def mixColumns (row : List Nat) (s : List Byte) : List Byte :=
  (List.range 16).map fun i =>
    (List.range 4).foldl (fun acc j => acc ^^^ times (row.getD ((j + 4 - i % 4) % 4) 0) (s.getD (i / 4 * 4 + j) 0)) 0

def encryptBytes (keys : List (List Byte)) (s : List Byte) : List Byte :=
  let start := addKey s (keys.getD 0 [])
  let mid := (keys.drop 1).take 9 |>.foldl (init := start) fun s k =>
    addKey (mixColumns [2, 3, 1, 1] (shiftRows 1 (s.map (lookupByte sboxRows)))) k
  addKey (shiftRows 1 (mid.map (lookupByte sboxRows))) (keys.getD 10 [])

def decryptBytes (keys : List (List Byte)) (s : List Byte) : List Byte :=
  let start := (shiftRows 3 (addKey s (keys.getD 10 []))).map (lookupByte invSboxRows)
  let mid := ((keys.drop 1).take 9).reverse |>.foldl (init := start) fun s k =>
    (shiftRows 3 (mixColumns [14, 11, 13, 9] (addKey s k))).map (lookupByte invSboxRows)
  addKey mid (keys.getD 0 [])

def toBlock (s : List Byte) : Block := Vector.ofFn fun i => s.getD i.val 0

/-- `E(key, block)` of FIPS 197. -/
def encrypt (key b : Block) : Block := toBlock (encryptBytes (roundKeys key.toList) b.toList)

/-- `D(key, block)` of FIPS 197. -/
def decrypt (key b : Block) : Block := toBlock (decryptBytes (roundKeys key.toList) b.toList)

end Sys2Proof.Tests.Aes
end

