-- ==== Sys2Proof/Tests/Slice0.lean ====
section
/-! SUPPORT. The model's own tests: well-formedness, decoding, and single steps against the vectors of
95_test_vectors.md (every expected value stands there or in the rule named). -/

namespace Sys2Proof.Tests

open Sys2Proof.Machine

/-! ### Helpers -/

/-- The `n` bytes of a hexadecimal number, first byte first. -/
def hexBytes (n x : Nat) : List Byte := (List.range n).map fun i => BitVec.ofNat 8 (x >>> (8 * (n - 1 - i)))

/-- A 16-byte block from a hexadecimal number. -/
def hexBlock (x : Nat) : Block := Vector.ofFn fun i => BitVec.ofNat 8 (x >>> (8 * (15 - i.val)))

/-- The common conditions of 95_test_vectors.md: reset, with `MEM_SIZE = 0x10000`. `BASE` 0x40 is this test's. -/
def base : State := { State.reset with memSize := 0x10000, baseBlock := 1 }

/-- The same with an ACTIVE context with nothing absorbed. -/
def active : State := { base with uctx := { phase := .active, ctx := initContext } }

def withArgs (a0 a1 a2 a3 : Word) (s : State) : State := { s with args := #v[a0, a1, a2, a3] }

def goesOn : StepOutcome → Bool
  | .next _ => true
  | .refused _ => false

/-- The state a step goes on to (reset where it stops; the tests say beside it that it goes on). -/
def after : StepOutcome → State
  | .next t => t
  | .refused _ => State.reset

/-- The STATUS word after a step, if it goes on. -/
def statusAfter (o : StepOutcome) : Option Word := if goesOn o then some (statusWord (after o)) else none

/-! ### Well-formedness: each check accepts and refuses -/

theorem test_wf_reserved : reservedZero 0x00000101 = false ∧ reservedZero 0x80000001 = false ∧
    reservedZero 0x000000FF = true := by decide

theorem test_wf_opcode : opcodeLegal 0x00000000 = false ∧ opcodeLegal 0x00000004 = false ∧
    opcodeLegal 0x00000031 = false ∧ opcodeLegal 0x00000030 = true := by decide

theorem test_wf_word : commandWordWf 0x00000101 = false ∧ commandWordWf 0x00000011 = false ∧
    commandWordWf 0x00000010 = true := by decide

theorem test_wf_width : accessWidthOk 16 = false ∧ accessWidthOk 8 = false ∧ accessWidthOk 32 = true := by decide

theorem test_wf_alignment : offsetAligned 0x06 = false ∧ offsetAligned 0x3C = true := by decide

theorem test_wf_block : offsetInBlock 0x40 = false ∧ offsetInBlock 0x3F = true := by decide

theorem test_wf_access : registerAccessWf 16 0x04 = false ∧ registerAccessWf 32 0x05 = false ∧
    registerAccessWf 32 0x40 = false ∧ registerAccessWf 32 0x14 = true := by decide

/-! ### Decoding, from words written out from the format of 30_encoding.md R70: RSVD in 31:8, OPCODE in 7:0 -/

theorem test_decode_shaInit : decode 0b00000000000000000000000000000001 = .ok .shaInit := by decide

theorem test_decode_shaUpdate : decode 0b00000000000000000000000000000010 = .ok .shaUpdate := by decide

theorem test_decode_shaFinal : decode 0b00000000000000000000000000000011 = .ok .shaFinal := by decide

theorem test_decode_hmac : decode 0b00000000000000000000000000010000 = .ok .hmac := by decide

theorem test_decode_cbcCipher : decode 0b00000000000000000000000000100000 = .ok .cbcCipher := by decide

theorem test_decode_cbcDecipher : decode 0b00000000000000000000000000100001 = .ok .cbcDecipher := by decide

theorem test_decode_kdfDerive : decode 0b00000000000000000000000000110000 = .ok .kdfDerive := by decide

/-- V-ENC-01: the illegal words, written to CMD in the ACTIVE state, give STATUS 0x00000013, and from reset 0x00000003. -/
theorem test_illegal_words :
    ([0x00000000, 0x00000004, 0x00000011, 0x00000022, 0x00000031, 0x000000FF, 0x00000100, 0x80000001] : List Word).all
      (fun w => statusAfter (writeCommand w active) == some 0x00000013 &&
        statusAfter (writeCommand w base) == some 0x00000003) = true := by decide

theorem test_tableWord : decodeTableWord 32 0x21 = some .cbcDecipher ∧ decodeTableWord 32 0x121 = none := by decide

/-- The first instruction after reset: from `State.reset` itself the step runs the placed command. -/
theorem test_fetch_from_reset :
    statusAfter (step (State.reset.withFetchWord 32 0x01)) = some 0x00000010 ∧
    statusAfter (step (State.reset.withFetchWord 32 0x02)) = some 0x00000001 ∧
    statusAfter (step (State.reset.withFetchWord 32 0x20)) = some 0x00000002 := by decide

/-! ### The register block (10_state.md) -/

theorem test_narrow_access_refused :
    step { base with pending := [.regWrite (.reg 0x08) 16 0x1234] } = .refused (.registerAccessWidth 16) ∧
    step { base with pending := [.regRead (.reg 0x06) 32] } = .refused (.registerAccessMisaligned 0x06) ∧
    step { base with pending := [.regWrite (.reg 0x40) 16 7] } = .next base := ⟨rfl, rfl, rfl⟩

/-- 10_state.md R29, with `BASE` 0x40: an access that begins below the block and reaches CMD is refused; one that ends
below it, and one just above it, are none of the block. -/
theorem test_access_from_below_refused :
    step { base with pending := [.regWrite (.bus 0x3E) 32 1] } = .refused (.registerAccessFromBelow 0x3E 32) ∧
    step { base with pending := [.regRead (.bus 0x3C) 64] } = .refused (.registerAccessFromBelow 0x3C 64) ∧
    step { base with pending := [.regWrite (.bus 0x3F) 16 1] } = .refused (.registerAccessFromBelow 0x3F 16) ∧
    step { base with pending := [.regWrite (.bus 0x3C) 32 1] } = .next base ∧
    step { base with pending := [.regWrite (.bus 0x80) 32 1] } = .next base ∧
    statusAfter (step { base with pending := [.regWrite (.bus 0x40) 32 1] }) = some 0x00000010 :=
  ⟨rfl, rfl, rfl, rfl, rfl, rfl⟩

theorem test_host_memory_edge :
    goesOn (step { base with pending := [.memWrite 0xFFFF [1, 2]] }) = true ∧
    (after (step { base with pending := [.memWrite 0xFFFF [1, 2]] })).mem = [(0xFFFF, 1)] := by decide

/-- 10_state.md R22: a read of CMD returns zero and starts nothing. -/
theorem test_read_cmd :
    step { active with pending := [.regRead (.reg 0x00) 32] } = .next { active with readData := .register 0 } := rfl

/-! ### SHA-256 (40_sha256.md) -/

/-- V-SHA-15. -/
theorem test_six_functions :
    bigSigma0 0x01234567 = 0x66654447 ∧ bigSigma1 0x01234567 = 0xa1461afd ∧
    smallSigma0 0x01234567 = 0x1f7fee6e ∧ smallSigma1 0x01234567 = 0xca1f2864 ∧
    ch 0x01234567 0x89abcdef 0xfedcba98 = 0xffffffff ∧ maj 0x01234567 0x89abcdef 0xfedcba98 = 0x89abcdef := by decide

/-- V-SHA-14. -/
theorem test_compress_a64 :
    compress shaIV (Vector.replicate 64 0x61) =
      ⟨0xdf5bb81c, 0xe81e0626, 0xfb45a894, 0x4fd40f31, 0xb25e6816, 0xd6d499c1, 0xab904929, 0x00635e66⟩ := by
  decide +kernel

/-- V-SHA-02, the schedule of "abc". -/
theorem test_schedule_abc :
    let w := messageSchedule (putLength 24 ((Vector.replicate 64 0).set 0 0x61 |>.set 1 0x62 |>.set 2 0x63 |>.set 3 0x80))
    w.getD 0 0 = 0x61626380 ∧ w.getD 15 0 = 0x00000018 ∧ w.getD 16 0 = 0x61626380 ∧ w.getD 17 0 = 0x000f0000 := by
  decide +kernel

/-- V-SHA-01, V-SHA-05 (the boundary of conflict C1) and V-SHA-08. -/
theorem test_digests :
    sha256 .full64 [] =
      hexBytes 32 0xe3b0c44298fc1c149afbf4c8996fb92427ae41e4649b934ca495991b7852b855 ∧
    sha256 .full64 (List.replicate 56 0x61) =
      hexBytes 32 0xb35439a4ac6f0948b6d6f9e3c6af0f5f590ce20f1bde7090ef7970686ec6738a ∧
    sha256 .full64 (List.replicate 65 0x61) =
      hexBytes 32 0x635361c48bb9eab14198e76ea8ab7f1a41685d6ad62aa9146d301d4f17eb0ae0 := by decide +kernel

/-- V-SHA-03, V-SHA-04, V-SHA-10. -/
theorem test_more_digests :
    sha256 .full64 [0] =
      hexBytes 32 0x6e340b9cffb37a989ca544e6bb780a2c78901d3fb33738768511a30617afa01d ∧
    sha256 .full64 (List.replicate 55 0x61) =
      hexBytes 32 0x9f4390f8d30c2dd92ec9f095b65e2b9ae9b0a925a5258e241c9f1e910f734318 ∧
    sha256 .full64 (List.replicate 120 0x61) =
      hexBytes 32 0x2f3d335432c70b580af0e8e1b3674a7c020d683aa5f73aaaedfdc55af904c21c := by decide +kernel

/-- V-SHA-16. -/
theorem test_length_modes :
    finalizeDigest .full64 { initContext with count := 0x20000000 } =
      hexBytes 32 0x0631d34041c92e76b584f8922943526982f9053a1b7895aeae06f641df905370 ∧
    finalizeDigest .legacy32 { initContext with count := 0x20000000 } =
      hexBytes 32 0xe3b0c44298fc1c149afbf4c8996fb92427ae41e4649b934ca495991b7852b855 := by decide +kernel

/-- R106, its example. -/
theorem test_shaInit : statusAfter (exec .shaInit base) = some 0x00000010 ∧
    (after (exec .shaInit base)).uctx.ctx = initContext := by decide

/-- V-SHA-20, the rows of SHA_UPDATE. -/
theorem test_shaUpdate_checks :
    statusAfter (exec .shaUpdate (withArgs 0 5 0 0 base)) = some 0x00000001 ∧
    statusAfter (exec .shaUpdate (withArgs 0 5 0 0 active)) = some 0x00000012 ∧
    statusAfter (exec .shaUpdate (withArgs 0 0 0 0 active)) = some 0x00000010 ∧
    statusAfter (exec .shaUpdate (withArgs 0xFFFF 1 0 0 active)) = some 0x00000010 ∧
    statusAfter (exec .shaUpdate (withArgs 0xFFFF 2 0 0 active)) = some 0x00000014 := by decide +kernel

/-- V-SHA-14 as the end of a SHA_UPDATE of 64 bytes with one pending (R107, its example). -/
theorem test_shaUpdate_block :
    let s := withArgs 0x1001 64 0 0 (memWrite 0x1000 (List.replicate 65 0x61)
      { active with uctx := { phase := .active, ctx := absorb initContext [0x61] } })
    let c := (after (exec .shaUpdate s)).uctx.ctx
    c.pendLen = 1 ∧ c.count = 65 ∧ c.words =
      ⟨0xdf5bb81c, 0xe81e0626, 0xfb45a894, 0x4fd40f31, 0xb25e6816, 0xd6d499c1, 0xab904929, 0x00635e66⟩ := by
  decide +kernel

/-- V-SHA-20, the rows of SHA_FINAL: the failures, and the digest of the empty message in the last 32 bytes of `M`. -/
theorem test_shaFinal_checks :
    statusAfter (exec .shaFinal (withArgs 0x2000 0 0 0 base)) = some 0x00000001 ∧
    statusAfter (exec .shaFinal (withArgs 0 0 0 0 active)) = some 0x00000012 ∧
    statusAfter (exec .shaFinal (withArgs 0xFFE1 0 0 0 active)) = some 0x00000014 ∧
    statusAfter (exec .shaFinal (withArgs 0xFFE0 0 0 0 active)) = some 0x00000020 := by decide +kernel

theorem test_shaFinal_digest :
    memRead (after (exec .shaFinal (withArgs 0xFFE0 0 0 0 active))) 0xFFE0 32 =
      hexBytes 32 0xe3b0c44298fc1c149afbf4c8996fb92427ae41e4649b934ca495991b7852b855 := by decide +kernel

/-- V-SHA-18: the guard. -/
theorem test_guard :
    let s := { active with uctx := { phase := .active, ctx := { initContext with pendLen := 64 } } }
    statusAfter (exec .shaUpdate (withArgs 0x1000 3 0 0 s)) = some 0x00000010 ∧
    after (exec .shaUpdate (withArgs 0x1000 3 0 0 s)) = withArgs 0x1000 3 0 0 s ∧
    statusAfter (exec .shaFinal (withArgs 0x2000 0 0 0 s)) = some 0x00000010 ∧
    after (exec .shaFinal (withArgs 0x2000 0 0 0 s)) = withArgs 0x2000 0 0 0 s := by decide +kernel

/-- V-SHA-19: the length limit. -/
theorem test_length_limit :
    let s := { active with uctx := { phase := .active, ctx :=
      { initContext with pendLen := 63, count := 0x1FFFFFFFFFFFFFFF } } }
    statusAfter (exec .shaUpdate (withArgs 0x1000 1 0 0 s)) = some 0x00000012 ∧
    statusAfter (exec .shaUpdate (withArgs 0x1000 0 0 0 s)) = some 0x00000010 := by decide +kernel

/-! ### HMAC (41_hmac.md) -/

/-- V-HMAC-01 and V-HMAC-03: the empty message, and 64 bytes `7 * i + 1`. -/
theorem test_hmac_function :
    hmacSha256 .full64 (hexBytes 16 0x000102030405060708090a0b0c0d0e0f) [] =
      hexBytes 32 0x07eff8b326b7798c9ccfcbdbe579489ac785a7995a04618b1a2813c26744777d ∧
    hmacSha256 .full64 (hexBytes 16 0x000102030405060708090a0b0c0d0e0f)
        ((List.range 64).map fun i => BitVec.ofNat 8 (7 * i + 1)) =
      hexBytes 32 0x9944228173de574661cd3f68cc98e7f9eeb3e8e8506a32c15a94ec7b7347253c := by decide +kernel

/-- V-HMAC-10: the MAC written over the message "abc". -/
theorem test_hmac_overlap :
    let s := withArgs 0x1000 0x1100 3 0x1100
      (memWrite 0x1100 [0x61, 0x62, 0x63] (memWrite 0x1000 (hexBytes 16 0x000102030405060708090a0b0c0d0e0f) base))
    statusAfter (exec .hmac s) = some 0x00000000 ∧
    memRead (after (exec .hmac s)) 0x1100 32 =
      hexBytes 32 0xd601cc177559b0248459787f7e804ed7f27689b5995c59b661802d9682fdf8d2 := by decide +kernel

/-- V-HMAC-12: the rejections. -/
theorem test_hmac_checks :
    statusAfter (exec .hmac (withArgs 0 0x1000 0 0xFFFFFFFF base)) = some 0x00000002 ∧
    statusAfter (exec .hmac (withArgs 0x1000 0 1 0x2000 base)) = some 0x00000002 ∧
    statusAfter (exec .hmac (withArgs 0x1000 0x1100 0 0 base)) = some 0x00000002 ∧
    statusAfter (exec .hmac (withArgs 0x1000 0xFFFFFFF0 0x20 0x2000 base)) = some 0x00000004 := by decide +kernel

/-! ### CBC (42_cbc.md), with AES-128 in place of the external cipher -/

/-- V-AES-01. -/
theorem test_aes :
    Aes.encrypt (hexBlock 0x000102030405060708090a0b0c0d0e0f) (hexBlock 0x00112233445566778899aabbccddeeff) =
      hexBlock 0x69c4e0d86a7b0430d8cdb78070b4c55a := by decide +kernel

/-- V-CBC-01, the loop over the first two of its blocks. -/
theorem test_cbc_encrypt_loop :
    let s := memWrite 0x1100 (hexBytes 32 0x6bc1bee22e409f96e93d7e117393172aae2d8a571e03ac9c9eb76fac45af8e51) base
    memRead (cbcEncryptLoop (Aes.encrypt (hexBlock 0x2b7e151628aed2a6abf7158809cf4f3c)) 2 0x1100
        (hexBlock 0x000102030405060708090a0b0c0d0e0f) s) 0x1100 32 =
      hexBytes 32 0x7649abac8119b246cee98e9b12e9197d5086cb9b507219ee95db113a917678b2 := by decide +kernel

/-- V-CBC-02, on the same blocks. -/
theorem test_cbc_decrypt_loop :
    let s := memWrite 0x1100 (hexBytes 32 0x7649abac8119b246cee98e9b12e9197d5086cb9b507219ee95db113a917678b2) base
    memRead (cbcDecryptLoop (Aes.decrypt (hexBlock 0x2b7e151628aed2a6abf7158809cf4f3c)) 2 0x1100
        (hexBlock 0x000102030405060708090a0b0c0d0e0f) s) 0x1100 32 =
      hexBytes 32 0x6bc1bee22e409f96e93d7e117393172aae2d8a571e03ac9c9eb76fac45af8e51 := by decide +kernel

/-- V-CBC-05. -/
theorem test_cbcCipher_checks :
    statusAfter (exec .cbcCipher (withArgs 0x1000 0x1010 0xFFFFFF00 17 base)) = some 0x00000002 ∧
    statusAfter (exec .cbcCipher (withArgs 0x1000 0x1010 0x1200 0 base)) = some 0x00000000 ∧
    statusAfter (exec .cbcCipher (withArgs 0x1000 0x1010 0xFFF0 16 base)) = some 0x00000000 ∧
    statusAfter (exec .cbcCipher (withArgs 0x1000 0x1010 0xFFF0 32 base)) = some 0x00000004 := by decide +kernel

/-- V-CBC-05, its row of CBC_DECIPHER, and the same operands with an IV. -/
theorem test_cbcDecipher_checks :
    statusAfter (exec .cbcDecipher (withArgs 0x1000 0 0x1200 16 base)) = some 0x00000002 ∧
    statusAfter (exec .cbcDecipher (withArgs 0x1000 0x1010 0x1200 16 base)) = some 0x00000000 := by decide +kernel

/-! ### KDF_DERIVE (43_kdf.md) -/

/-- V-KDF-01: the 64 bytes, with AES-128 as `E`. -/
theorem test_kdf_material :
    kdfMaterial Aes.encrypt .full64 (hexBlock 0x000102030405060708090a0b0c0d0e0f)
        (hexBlock 0x101112131415161718191a1b1c1d1e1f) =
      hexBytes 32 0x3a6ff4e45d13c86e3b546259023b6663bab02a0799946e5b95c827f55a2e96b2 ++
      hexBytes 32 0x169edf75dae6751bbffe351201c541e228d7f557a0c9b5e29509f5fe0948351e := by decide +kernel

/-- V-KDF-05 and V-KDF-04 (a): a null RndA is rejected, an RndA outside `M` is not. -/
theorem test_kdfDerive_checks :
    statusAfter (exec .kdfDerive (withArgs 0x1000 0 0x1020 0x1040 base)) = some 0x00000002 ∧
    statusAfter (exec .kdfDerive (withArgs 0x1000 0x1010 0x1020 0 base)) = some 0x00000002 ∧
    statusAfter (exec .kdfDerive (withArgs 0xFFFFFFF8 0x1010 0x1020 0x1040 base)) = some 0x00000004 ∧
    statusAfter (exec .kdfDerive (withArgs 0x1000 0x1010 0x1020 0xFFF0 base)) = some 0x00000004 ∧
    statusAfter (exec .kdfDerive (withArgs 0x1000 0xFFFFFFF0 0x1020 0x1040 base)) = some 0x00000000 := by decide +kernel

/-! ### The host script (30_encoding.md) -/

/-- P1: the encoding of the script, its bus writes in order. -/
theorem test_assemble_p1 :
    assemble [] [.mem 0x1000 [0x61, 0x62, 0x63], .command .shaInit [], .command .shaUpdate [.num 0x1000, .num 3],
        .command .shaFinal [.num 0x2000]] =
      some [.memWrite 0x1000 [0x61, 0x62, 0x63], .regWrite (.reg 0x00) 32 0x00000001,
        .regWrite (.reg 0x08) 32 0x00001000, .regWrite (.reg 0x0C) 32 0x00000003, .regWrite (.reg 0x00) 32 0x00000002,
        .regWrite (.reg 0x08) 32 0x00002000, .regWrite (.reg 0x00) 32 0x00000003] := by decide

/-- P2, its head: the branch names the access after the skipped SHA_FINAL. -/
theorem test_assemble_branch :
    assemble [] [.command .shaUpdate [.num 0x1000, .num 1], .ifFailed 0, .command .shaFinal [.num 0x3000], .label 0,
        .command .shaInit []] =
      some [.regWrite (.reg 0x08) 32 0x00001000, .regWrite (.reg 0x0C) 32 0x00000001, .regWrite (.reg 0x00) 32 0x00000002,
        .branchIfFailed 6, .regWrite (.reg 0x08) 32 0x00003000, .regWrite (.reg 0x00) 32 0x00000003,
        .regWrite (.reg 0x00) 32 0x00000001] := by decide

/-- A script with a wrong number of operands, or an unbound label, is no program; a NOP is no access. -/
theorem test_assemble_rejects :
    assemble [] [.command .shaFinal []] = none ∧ assemble [] [.goto 7] = none ∧
    assemble [] [.command .shaFinal [.sym 3]] = none ∧
    assemble [(3, 0x2000)] [.command .shaFinal [.sym 3]] =
      some [.regWrite (.reg 0x08) 32 0x00002000, .regWrite (.reg 0x00) 32 0x00000003] ∧
    assemble [] [.nop] = some [] := by decide

end Sys2Proof.Tests
end

