-- ==== Sys2Proof/Tests/Witnesses.lean ====
section
/-! SUPPORT. For every statement with hypotheses, a named theorem with a concrete state and operands that meet them all
together, one per clause and at the ends of a clause's range. A pair "it goes on to `after o`" is how a witness says that
a step or command answers a next state. -/

namespace Sys2Proof.Tests

open Sys2Proof.Machine

/-- An outcome that goes on is the next state `after` gives. -/
theorem eq_next_after {o : StepOutcome} (h : goesOn o = true) : o = .next (after o) := by
  cases o with
  | next t => rfl
  | fault r => exact nomatch r
  | refused r => simp [goesOn] at h

/-- A key at 0x1000, an IV (or a message, or RndB) at 0x1010 and a buffer (or an output) at the end of `M`. -/
def full : State := withArgs 0x1000 0x1010 0xFFF0 16 active

/-! ### Encoding and the register block -/

theorem witness_DecodingIsWholeWordMatch :
    (∀ i : Instr, (0x00000100 : Word) ≠ encode i) ∧ (∀ i : Instr, (0x00000000 : Word) ≠ encode i) := by
  constructor <;> intro i <;> cases i <;> decide

theorem witness_StepRunsDecodedCommand :
    (({ base with pending := [.regWrite (.bus 0x40) 32 0x21] } : State).pending = [.regWrite (.bus 0x40) 32 0x21] ∧
      placeOffset base (.bus 0x40) = some 0x00) ∧
    placeOffset base (.reg 0x00) = some 0x00 ∧ decode 0x21 = .ok .cbcDecipher ∧
    decode 0x22 = .error .illegalOpcode := by decide

theorem witness_IdleEngineKeepsState : State.reset.pending = [] := rfl

theorem witness_ArgRegistersStoreAndReadBack :
    (placeOffset base (.reg 0x08) = some (0x08 + 4 * (0 : Fin 4).val) ∧
      ({ base with pending := [.regWrite (.reg 0x08) 32 7] } : State).pending = [.regWrite (.reg 0x08) 32 7]) ∧
    (placeOffset base (.bus 0x54) = some (0x08 + 4 * (3 : Fin 4).val) ∧
      ({ base with pending := [.regRead (.bus 0x54) 32] } : State).pending = [.regRead (.bus 0x54) 32]) := by decide

theorem witness_ReservedOffsetsReadZeroIgnoreWrites :
    (placeOffset base (.reg 0x18) = some 0x18 ∧ 0x18 ≤ 0x18 ∧ 0x18 ≤ 0x3C ∧ 0x18 % 4 = 0 ∧
      ({ base with pending := [.regWrite (.reg 0x18) 32 7] } : State).pending = [.regWrite (.reg 0x18) 32 7]) ∧
    (placeOffset base (.reg 0x3C) = some 0x3C ∧ 0x18 ≤ 0x3C ∧ 0x3C ≤ 0x3C ∧ 0x3C % 4 = 0 ∧
      ({ base with pending := [.regRead (.reg 0x3C) 32] } : State).pending = [.regRead (.reg 0x3C) 32]) := by decide

theorem witness_StatusAndCmdAccesses :
    placeOffset base (.reg 0x04) = some 0x04 ∧ placeOffset base (.reg 0x00) = some 0x00 ∧
    ({ base with pending := [.regWrite (.reg 0x04) 32 7] } : State).pending = [.regWrite (.reg 0x04) 32 7] ∧
    ({ base with pending := [.regRead (.reg 0x04) 32] } : State).pending = [.regRead (.reg 0x04) 32] ∧
    ({ base with pending := [.regRead (.reg 0x00) 32] } : State).pending = [.regRead (.reg 0x00) 32] :=
  ⟨by decide, by decide, rfl, rfl, rfl⟩

theorem witness_NarrowOrMisalignedAccessesRefused :
    ((placeOffset base (.reg 0) = some 0 ∧ 16 ≠ 32) ∧ ({ base with pending := [.regWrite (.reg 0) 16 7] } : State).pending
      = [.regWrite (.reg 0) 16 7]) ∧
    ((placeOffset base (.reg 63) = some 63 ∧ 32 = 32 ∧ 63 % 4 ≠ 0) ∧
      ({ base with pending := [.regRead (.reg 63) 32] } : State).pending = [.regRead (.reg 63) 32]) ∧
    ((0x3F < busBase base ∧ 8 * busBase base < 8 * 0x3F + 9) ∧
      ({ base with pending := [.regWrite (.bus 0x3F) 9 7] } : State).pending = [.regWrite (.bus 0x3F) 9 7]) := by decide

theorem witness_BusAddressesOfTheBlock :
    0 < 64 ∧ 63 < 64 ∧ 0x3F < busBase base ∧ busBase base + 64 ≤ 0x80 := by decide

theorem witness_OnlyUndefinedHostAccessesStop :
    (({ base with pending := [.regWrite (.reg 0x08) 8 7] } : State).pending = [.regWrite (.reg 0x08) 8 7] ∧
      placeOffset base (.reg 0x08) = some 0x08 ∧ (8 ≠ 32 ∨ 0x08 % 4 ≠ 0)) ∧
    (({ base with pending := [.regRead (.bus 0x3E) 32] } : State).pending = [.regRead (.bus 0x3E) 32] ∧
      0x3E < busBase base ∧ 8 * busBase base < 8 * 0x3E + 32) := by decide

theorem witness_ResultChangedOnlyByCommands :
    let s := { base with pending := [commandWrite 0x00000000] }
    step s = .next (after (step s)) ∧ (after (step s)).result ≠ s.result := ⟨rfl, by decide⟩

theorem witness_HostMemoryReadsBackWrites :
    let s := { base with pending := [.memWrite 0xFFFF [0x5A], .memRead 0xFFFF 1] }
    0xFFFF + [(0x5A : Byte)].length ≤ s.memSize ∧
    s.pending = .memWrite 0xFFFF [0x5A] :: .memRead 0xFFFF [(0x5A : Byte)].length :: [] := by decide

theorem witness_BranchTakenExactlyOnFailure :
    (({ base with pending := [.branchIfFailed 0] } : State).pending = [.branchIfFailed 0] ∧ base.result = .success) ∧
    (({ base with pending := [.branchIfFailed 0], result := .busError } : State).pending = [.branchIfFailed 0] ∧
      ({ base with pending := [.branchIfFailed 0], result := .busError } : State).result ≠ .success) := by decide

/-- A target inside the script, and one just past its end. -/
theorem witness_GotoContinuesAtTarget :
    ({ base with script := [.platformReset], pending := [.jump 0] } : State).pending = [.jump 0] ∧
    (({ base with script := [.platformReset], pending := [.jump 1] } : State).pending = [.jump 1] ∧
      ({ base with script := [.platformReset], pending := [.jump 1] } : State).script.length ≤ 1) := by decide

theorem witness_LabelNamesNextStatement :
    (∀ x ∈ ([.command .shaInit [], .mem 1 [2]] : List Stmt), (∃ i ops, x = .command i ops) ∨ (∃ a v, x = .mem a v) ∨
      (∃ i v, x = .setArg i v) ∨ (∃ w, x = .setCmd w)) ∧
    assemble [] [.command .shaInit [], .mem 1 [2]] = some [commandWrite 0x01, .memWrite 1 [2]] := by
  refine ⟨fun x hx => ?_, by decide⟩
  simp only [List.mem_cons, List.not_mem_nil, or_false] at hx
  obtain rfl | rfl := hx
  · exact .inl ⟨_, _, rfl⟩
  · exact .inr (.inl ⟨_, _, rfl⟩)

theorem witness_AccessOutsideBlockLeavesEngine :
    placeOffset base (.reg 0x40) = none ∧ placeOffset base (.bus 0x80) = none ∧
    (placeOffset base (.bus 0x3C) = none ∧ 8 * 0x3C + 32 ≤ 8 * busBase base) ∧
    ({ base with pending := [.regWrite (.reg 0x40) 8 7] } : State).pending = [.regWrite (.reg 0x40) 8 7] ∧
    ({ base with pending := [.regRead (.reg 0x40) 32] } : State).pending = [.regRead (.reg 0x40) 32] ∧
    ({ base with pending := [.regWrite (.bus 0x3C) 32 7] } : State).pending = [.regWrite (.bus 0x3C) 32 7] := by decide

/-- Accesses that start at the last byte of `M` and pass it. -/
theorem witness_HostAccessReachesOnlyMemory :
    ({ base with pending := [.memWrite 0xFFFF [1, 2]] } : State).pending = [.memWrite 0xFFFF [1, 2]] ∧
    0xFFFF + 0 < base.memSize ∧ base.memSize ≤ 0x10000 ∧
    ({ base with pending := [.memRead 0xFFFF 2] } : State).pending = [.memRead 0xFFFF 2] := by decide

theorem witness_ResetLeavesTheListedValues :
    ({ active with pending := [.platformReset] } : State).pending = [.platformReset] := rfl

theorem witness_ResetIsNotShaInit : State.reset.uctx.phase = .uninit := rfl

/-! ### Result codes -/

/-- One state and word for each clause of the priority list. -/
theorem witness_ResultCodePriority :
    (writeCommand 0x100 base = .next (after (writeCommand 0x100 base)) ∧ decode 0x100 = .error .reservedBitsSet) ∧
    (writeCommand 0x02 base = .next (after (writeCommand 0x02 base)) ∧ decode 0x02 = .ok .shaUpdate ∧
      base.uctx.phase ≠ .active) ∧
    (writeCommand 0x03 active = .next (after (writeCommand 0x03 active)) ∧ decode 0x03 = .ok .shaFinal ∧
      active.uctx.phase = .active ∧ arg active 0 = 0) ∧
    (let s := withArgs 0x1000 0x1010 0xFFF1 16 base;
      writeCommand 0x20 s = .next (after (writeCommand 0x20 s)) ∧ decode 0x20 = .ok .cbcCipher ∧
      ¬ (arg s 0 = 0 ∨ arg s 1 = 0 ∨ arg s 2 = 0 ∨ arg s 3 % 16 ≠ 0) ∧
      ∃ r ∈ regions .cbcCipher s, ¬ RegionValid s.memSize r.1 r.2) ∧
    (writeCommand 0x20 full = .next (after (writeCommand 0x20 full)) ∧
      ¬ (arg full 0 = 0 ∨ arg full 1 = 0 ∨ arg full 2 = 0 ∨ arg full 3 % 16 ≠ 0) ∧
      ¬ ∃ r ∈ regions .cbcCipher full, ¬ RegionValid full.memSize r.1 r.2) := by
  refine ⟨⟨rfl, by decide⟩, ⟨rfl, by decide, by decide⟩, ⟨rfl, by decide, by decide, by decide⟩,
    ⟨eq_next_after (by decide +kernel), by decide, by decide, by decide⟩,
    ⟨eq_next_after (by decide +kernel), by decide, by decide⟩⟩

/-- The null and length clauses of every command of that list, at their first failing values. -/
theorem witness_ResultCodePriority_parameters :
    (let s := withArgs 0 1 0 0 active; 0 < arg s 1 ∧ arg s 0 = 0) ∧
    (let s := withArgs 1 1 0 0 { active with uctx := { phase := .active, ctx :=
        { initContext with count := 0x1FFFFFFFFFFFFFFF } } };
      2 ^ 61 - 1 < s.uctx.ctx.count.toNat + arg s 1) ∧
    (let s := withArgs 1 0 1 1 base; arg s 1 = 0 ∧ 0 < arg s 2) ∧
    (let s := withArgs 1 1 1 17 base; arg s 3 % 16 ≠ 0) ∧
    (let s := withArgs 1 0 1 1 base; arg s 1 = 0) := by decide

theorem witness_FailedCommandChangesOnlyResult :
    (writeCommand 0x03 active = .next (after (writeCommand 0x03 active)) ∧
      (after (writeCommand 0x03 active)).result ≠ .success) ∧
    (writeCommand 0x04 active = .next (after (writeCommand 0x04 active)) ∧
      (after (writeCommand 0x04 active)).result ≠ .success) := ⟨⟨rfl, by decide⟩, ⟨rfl, by decide⟩⟩

/-- For every statement whose one hypothesis is that a command answers a next state: each of the seven does, and ends
with Success, on these operands (CommandsKeepOperandsAndHostSide, InvalidContextExactlyOutsideActive, ContextLifecycle,
NullAddressNeverAccessed, MemoryOutsideStoredRegionUnchanged, OtherCommandsLeaveUserContext). -/
theorem witness_commands_answer (i : Instr) :
    let s := if i = .kdfDerive ∨ i = .hmac then withArgs 0x1000 0x1010 16 0xFFC0 active else full
    exec i s = .next (after (exec i s)) ∧ (after (exec i s)).result = .success := by
  cases i <;> exact ⟨eq_next_after (by decide +kernel), by decide +kernel⟩

/-- The lifecycle's rows outside ACTIVE, and SHA_FINAL that is not Ready. -/
theorem witness_ContextLifecycle :
    (exec .shaUpdate base = .next (after (exec .shaUpdate base)) ∧ base.uctx.phase ≠ .active) ∧
    (exec .shaFinal base = .next (after (exec .shaFinal base)) ∧ base.uctx.phase ≠ .active) ∧
    (exec .shaFinal active = .next (after (exec .shaFinal active)) ∧ active.uctx.phase = .active ∧
      ¬ Ready .shaFinal active) ∧
    (Ready .shaFinal full ∧ Ready .shaUpdate full) := by
  refine ⟨⟨rfl, by decide⟩, ⟨rfl, by decide⟩, ⟨rfl, by decide, ?_⟩, ?_, ?_⟩ <;> simp only [Ready] <;> decide

theorem witness_MemoryOutsideStoredRegionUnchanged :
    ¬ InRegion 0xFFEF (storedRegion .cbcCipher full) ∧ ¬ InRegion 0x10000 (storedRegion .cbcCipher full) := by decide

theorem witness_NullAddressNeverAccessed : Ready .cbcCipher full ∧ (0x1000, 16) ∈ readRegions .cbcCipher full := by
  simp only [Ready]; decide

/-- Two states that differ in a byte of `M` just outside every region CBC_CIPHER reads, and are Ready. -/
theorem witness_CommandsSeeOnlyTheirRegions :
    let s := memWrite 0xFFEF [1] full
    full.args = s.args ∧ full.uctx = s.uctx ∧ full.memSize = s.memSize ∧ full.lenMode = s.lenMode ∧
    full.draws = s.draws ∧
    (∀ r ∈ readRegions .cbcCipher full, ∀ a, InRegion a r → memByte full a = memByte s a) ∧
    exec .cbcCipher full = .next (after (exec .cbcCipher full)) ∧
    exec .cbcCipher s = .next (after (exec .cbcCipher s)) ∧
    Ready .cbcCipher full ∧ InRegion 0xFFFF (storedRegion .cbcCipher full) := by
  refine ⟨rfl, rfl, rfl, rfl, rfl, ?_, eq_next_after (by decide +kernel), eq_next_after (by decide +kernel), ?_,
    by decide⟩
  · intro r hr a ha
    have hlist : readRegions .cbcCipher full = [(0x1000, 16), (0x1010, 16), (0xFFF0, 16)] := by decide
    have hne : a ≠ 0xFFEF := by
      rw [hlist] at hr
      simp only [List.mem_cons, List.not_mem_nil, or_false] at hr
      obtain rfl | rfl | rfl := hr <;> simp only [InRegion] at ha <;> omega
    show memByte full a = (Memory.lookup a [(0xFFEF, 1)]).getD _
    simp [Memory.lookup, Memory.unlisted, hne, memByte, memWrite, full, withArgs, active, base, State.reset]
  · simp only [Ready]; decide

/-! ### The streaming hash -/

theorem witness_ShaUpdateAbsorbsRegion :
    Ready .shaUpdate (withArgs 0xFFFF 1 0 0 active) ∧
    (Ready .shaUpdate (withArgs 0 0 0 0 active) ∧ arg (withArgs 0 0 0 0 active) 1 = 0) := by
  simp only [Ready]; decide

theorem witness_AbsorbingOneByte :
    (initContext.pendLen.val < 64 ∧ initContext.pendLen.val < 63) ∧
    (({ initContext with pendLen := 63 } : HashContext).pendLen.val < 64 ∧
      ({ initContext with pendLen := 63 } : HashContext).pendLen.val = 63) := by decide

theorem witness_MessageLengthLimit :
    (let s := withArgs 1 1 0 0 { active with uctx := { phase := .active, ctx :=
        { initContext with count := 0x1FFFFFFFFFFFFFFF } } };
      s.uctx.phase = .active ∧ 2 ^ 61 - 1 < s.uctx.ctx.count.toNat + arg s 1) ∧
    (0x1FFFFFFFFFFFFFFF : BitVec 64).toNat ≤ 2 ^ 61 - 1 := by decide

theorem witness_ShaFinalWritesDigest :
    Ready .shaFinal (withArgs 0xFFE0 0 0 0 active) ∧ ¬ InRegion 0xFFDF (0xFFE0, 32) := by
  simp only [Ready]; decide

/-- Both ends of the corrupted range, with operands that pass the other checks. -/
theorem witness_CorruptedPendingLengthIsGuarded :
    ∀ n ∈ ([64, 127] : List (Fin 128)),
      let s := withArgs 1 1 0 0 { active with uctx := { phase := .active, ctx := { initContext with pendLen := n } } }
      s.uctx.phase = .active ∧ 64 ≤ s.uctx.ctx.pendLen.val ∧ (arg s 1 = 0 ∨ arg s 0 ≠ 0) ∧
      s.uctx.ctx.count.toNat + arg s 1 ≤ 2 ^ 61 - 1 ∧ RegionValid s.memSize (arg s 0) (arg s 1) ∧
      arg s 0 ≠ 0 ∧ RegionValid s.memSize (arg s 0) 32 := by decide

theorem witness_PhaseChangedOnlyByShaCommandsOrReset :
    (let s := { base with pending := [commandWrite 0x01] };
      step s = .next (after (step s)) ∧ (after (step s)).uctx.phase ≠ s.uctx.phase) ∧
    (let s := { active with pending := [.platformReset] };
      step s = .next (after (step s)) ∧ (after (step s)).uctx.phase ≠ s.uctx.phase) :=
  ⟨⟨rfl, by decide⟩, ⟨rfl, by decide⟩⟩

theorem witness_MessageScheduleRecurrence : (0 < 16 ∧ 15 < 16) ∧ (16 ≤ 16 ∧ 16 < 64) ∧ (16 ≤ 63 ∧ 63 < 64) := by
  decide

theorem witness_AbsorbedContextFields :
    (List.replicate 63 (0x61 : Byte)).length ≤ 2 ^ 61 - 1 ∧ 62 < 64 ∧
    62 < (List.replicate 63 (0x61 : Byte)).length % 64 := by decide

theorem witness_Sha256IsStandardPaddedHash : (List.replicate 56 (0x61 : Byte)).length ≤ 2 ^ 61 - 1 := by decide

/-- The right side, computed from the standard padding, on both sides of the extra block (V-SHA-04, V-SHA-05). -/
theorem witness_standard_padding :
    digestBytes (chainingValue (paddedMessage (List.replicate 55 0x61))) =
      hexBytes 32 0x9f4390f8d30c2dd92ec9f095b65e2b9ae9b0a925a5258e241c9f1e910f734318 ∧
    digestBytes (chainingValue (paddedMessage (List.replicate 56 0x61))) =
      hexBytes 32 0xb35439a4ac6f0948b6d6f9e3c6af0f5f590ce20f1bde7090ef7970686ec6738a := by decide +kernel

theorem witness_LengthModesAgreeBelow512MiB :
    ({ initContext with count := 0x1FFFFFFF } : HashContext).count.toNat < 2 ^ 29 := by decide

/-- SHA_INIT, a SHA_UPDATE of one byte, an HMAC between, and SHA_FINAL, each ending with Success. -/
theorem witness_StreamingEqualsOneShot :
    let t0 := after (exec .shaInit base)
    let s1 := withArgs 0x1000 1 0 0 (memWrite 0x1000 [0x61] t0)
    let t1 := after (exec .shaUpdate s1)
    let s2 := after (exec .hmac (withArgs 0x1100 0x1000 1 0x1200 t1))
    let s3 := withArgs 0x2000 0 0 0 s2
    exec .shaInit base = .next t0 ∧ Absorbs t0.uctx ([] ++ memRead s1 0x1000 1) t1.uctx ∧ s3.uctx = t1.uctx ∧
    exec .shaFinal s3 = .next (after (exec .shaFinal s3)) ∧ (after (exec .shaFinal s3)).result = .success := by
  refine ⟨rfl, ?_, by decide +kernel, eq_next_after (by decide +kernel), by decide +kernel⟩
  exact .update (s := withArgs 0x1000 1 0 0 (memWrite 0x1000 [0x61] (after (exec .shaInit base)))) (.none _) rfl
    (eq_next_after (by decide +kernel)) (by decide +kernel)

/-! ### HMAC, CBC and KDF_DERIVE -/

theorem witness_HmacWritesMac :
    Ready .hmac (withArgs 0xFFF0 0xFFF0 16 0xFFE0 base) ∧ Ready .hmac (withArgs 1 0 0 0x1000 base) ∧
    ¬ InRegion 0xFFDF (0xFFE0, 32) := by
  simp only [Ready]; decide

theorem witness_HmacIsStandardHmac : (List.replicate 16 (0x5A : Byte)).length = 16 := rfl

theorem witness_CbcCipherChainsBlocks :
    let s := withArgs 0x1000 0x1010 0xFFE0 32 base
    Ready .cbcCipher s ∧ 0 < arg s 3 / 16 ∧ 1 < arg s 3 / 16 ∧ ¬ InRegion 0xFFDF (arg s 2, arg s 3) := by
  simp only [Ready]; decide

theorem witness_CbcDecipherUnchainsBlocks :
    let s := withArgs 0x1000 0x1010 0xFFE0 32 base
    Ready .cbcDecipher s ∧ 0 < arg s 3 / 16 ∧ 1 < arg s 3 / 16 ∧ ¬ InRegion 0xFFDF (arg s 2, arg s 3) := by
  simp only [Ready]; decide

/-- Four blocks of which the second is written in one state and not in the other; the fourth is neither it nor the next. -/
theorem witness_CbcDecipherErrorStaysLocal :
    let s1 := withArgs 0x1000 0x1010 0x1100 64 base
    let s2 := memWrite 0x1110 [1] s1
    Ready .cbcDecipher s1 ∧ s1.args = s2.args ∧ s1.memSize = s2.memSize ∧
    readBlock s1 (arg s1 0) = readBlock s2 (arg s1 0) ∧ readBlock s1 (arg s1 1) = readBlock s2 (arg s1 1) ∧
    (∀ k, k < arg s1 3 / 16 → k ≠ 1 → readBlock s1 (arg s1 2 + 16 * k) = readBlock s2 (arg s1 2 + 16 * k)) ∧
    exec .cbcDecipher s1 = .next (after (exec .cbcDecipher s1)) ∧
    exec .cbcDecipher s2 = .next (after (exec .cbcDecipher s2)) ∧
    3 < arg s1 3 / 16 ∧ 3 ≠ 1 ∧ 3 ≠ 1 + 1 := by
  have same : ∀ x, (∀ i : Fin 16, x + i.val ≠ 0x1110) →
      readBlock (withArgs 0x1000 0x1010 0x1100 64 base) x =
        readBlock (memWrite 0x1110 [1] (withArgs 0x1000 0x1010 0x1100 64 base)) x := by
    intro x hx
    refine congrArg Vector.ofFn (funext fun i => ?_)
    show _ = (Memory.lookup (x + i.val) [(0x1110, 1)]).getD _
    simp [Memory.lookup, Memory.unlisted, hx i, memByte, memWrite, withArgs, base, State.reset]
  refine ⟨?_, rfl, rfl, same _ ?_, same _ ?_, ?_, eq_next_after (by decide +kernel), eq_next_after (by decide +kernel),
    by decide, by decide, by decide⟩
  · simp only [Ready]; decide
  · intro i; show 0x1000 + i.val ≠ 0x1110; omega
  · intro i; show 0x1010 + i.val ≠ 0x1110; omega
  · intro k hk hk1
    refine same _ fun i => ?_
    show 0x1100 + 16 * k + i.val ≠ 0x1110
    omega

theorem witness_CbcLengthRule :
    arg (withArgs 0x1000 0x1010 0x1200 17 base) 3 % 16 ≠ 0 ∧ arg (withArgs 0x1000 0x1010 0x1200 1 base) 3 % 16 ≠ 0 ∧
    (arg (withArgs 0x1000 0x1010 0xFFFFFFFF 0 base) 3 = 0 ∧
      Ready .cbcCipher (withArgs 0x1000 0x1010 0xFFFFFFFF 0 base)) ∧
    Ready .cbcDecipher (withArgs 0x1000 0x1010 0xFFF0 16 base) := by
  simp only [Ready]; decide

/-- The key just below the buffer and the IV just above it. -/
theorem witness_CbcRoundTrip :
    let s := withArgs 0x1000 0x1020 0x1010 16 base
    let t := after (exec .cbcCipher s)
    Ready .cbcCipher s ∧ (arg s 0 + 16 ≤ arg s 2 ∨ arg s 2 + arg s 3 ≤ arg s 0) ∧
    (arg s 1 + 16 ≤ arg s 2 ∨ arg s 2 + arg s 3 ≤ arg s 1) ∧
    exec .cbcCipher s = .next t ∧ exec .cbcDecipher t = .next (after (exec .cbcDecipher t)) := by
  refine ⟨?_, by decide, by decide, eq_next_after (by decide +kernel), eq_next_after (by decide +kernel)⟩
  simp only [Ready]; decide

/-- RndA outside `M`, and the output over the authentication key. -/
theorem witness_KdfWritesSessionKeys :
    Ready .kdfDerive (withArgs 0xFFF0 0xFFFFFFFF 1 0xFFC0 base) ∧ ¬ InRegion 0xFFBF (0xFFC0, 64) := by
  simp only [Ready]; decide

/-- A null RndA, and two states that differ in the RndA operand only. -/
theorem witness_KdfIgnoresRndA :
    arg (withArgs 0x1000 0 0x1020 0x1040 base) 1 = 0 ∧
    (let s1 := withArgs 0x1000 0x1010 0x1020 0x1040 base;
      let s2 := withArgs 0x1000 0xFFFFFFFF 0x1020 0x1040 base;
      arg s1 1 ≠ 0 ∧ arg s2 1 ≠ 0 ∧ arg s1 0 = arg s2 0 ∧ arg s1 2 = arg s2 2 ∧ arg s1 3 = arg s2 3 ∧
      s1.memSize = s2.memSize ∧ s1.lenMode = s2.lenMode ∧
      readBlock s1 (arg s1 0) = readBlock s2 (arg s1 0) ∧ readBlock s1 (arg s1 2) = readBlock s2 (arg s1 2) ∧
      exec .kdfDerive s1 = .next (after (exec .kdfDerive s1)) ∧
      exec .kdfDerive s2 = .next (after (exec .kdfDerive s2)) ∧ (after (exec .kdfDerive s1)).result = .success) := by
  refine ⟨by decide, by decide, by decide, by decide, by decide, by decide, rfl, rfl, rfl, rfl,
    eq_next_after (by decide +kernel), eq_next_after (by decide +kernel), by decide +kernel⟩

/-! ### The host script and the invariants -/

theorem witness_AssembledCommandRuns :
    ([] : List Word).length = operandCount .shaInit ∧ ([1, 2, 3, 4] : List Word).length = operandCount .hmac ∧
    ([1, 2, 3, 4] : List Word)[3]? = some 4 := by decide

theorem witness_Sha256PseudoInstruction :
    ((0xFFFF : Word) ≠ 0 ∧ (0xFFE0 : Word) ≠ 0 ∧ RegionValid base.memSize (0xFFFF : Word).toNat (1 : Word).toNat ∧
      RegionValid base.memSize (0xFFE0 : Word).toNat 32) ∧
    RegionValid base.memSize (0 : Word).toNat (0 : Word).toNat := by decide

/-- The invariant holds of an ACTIVE context with nothing absorbed, and of the state before the step it is taken from. -/
theorem witness_InvariantRulesOutGuard : active.Inv ∧ active.uctx.phase = .active := by
  refine ⟨⟨by decide, ?_, by decide, fun _ => ⟨[], by decide, by decide⟩⟩, rfl⟩
  intro c hc
  exact absurd hc (by decide +revert)

theorem witness_StepKeepsInvariant :
    let s := { active with pending := [.memWrite 0xFFFF [1]] }
    s.Inv ∧ step s = .next (after (step s)) := by
  refine ⟨⟨by decide, ?_, by decide, fun _ => ⟨[], by decide, by decide⟩⟩, rfl⟩
  intro c hc
  exact absurd hc (by decide +revert)

end Sys2Proof.Tests
end

