-- ==== Sys2Proof/Proofs/Scope.lean ====
section
/-! The register block on the host bus (10_state.md R21) and the law of the block cipher (00_scope.md R12). -/

namespace Sys2Proof.Config

/-- R12: the cipher under one key is a permutation, and `D` is its inverse. -/
@[simp] theorem decrypt_encrypt (k b : Block) : decrypt k (encrypt k b) = b :=
  (blockCipher k).symm_apply_apply b

end Sys2Proof.Config

namespace Sys2Proof.Machine

theorem busBase_mod_64 (s : State) : busBase s % 64 = 0 := Nat.mul_mod_right 64 s.baseBlock

theorem placeOffset_reg_of_lt (s : State) {o : Nat} (h : o < 64) : placeOffset s (.reg o) = some o :=
  if_pos (decide_eq_true h)

theorem placeOffset_bus_of_lt (s : State) {o : Nat} (h : o < 64) :
    placeOffset s (.bus (busBase s + o)) = some o := by
  have inBlock : busBase s ≤ busBase s + o ∧ busBase s + o < busBase s + 64 := by omega
  rw [placeOffset, if_pos inBlock, Nat.add_sub_cancel_left]

theorem placeOffset_bus_eq_none_iff (s : State) (a : Nat) :
    placeOffset s (.bus a) = none ↔ a < busBase s ∨ busBase s + 64 ≤ a := by
  rw [placeOffset, ite_eq_right_iff]
  constructor
  · intro h
    by_contra inBlock
    exact Option.some_ne_none _ (h (by omega))
  · intro outside inBlock
    omega

/-- Settles O11: `BASE` is 64 times a number, and the block is the 64 addresses from it on. -/
theorem busAddressesOfTheBlock : Obligations.BusAddressesOfTheBlock := fun s =>
  ⟨busBase_mod_64 s,
    fun _ h => ⟨placeOffset_bus_of_lt s h, placeOffset_reg_of_lt s h⟩,
    fun a => (placeOffset_bus_eq_none_iff s a).2⟩

/-- Settles O49: the law of the opaque permutation, under every key. -/
theorem blockCipherLaw : Obligations.BlockCipherLaw := Config.decrypt_encrypt

end Sys2Proof.Machine
end

/-! What each access to the register block does (10_state.md R21 to R29, R40), and exactly which accesses stop the
machine (R29, 60_exceptions.md R219). -/

namespace Sys2Proof.Machine

/-! ### The register map (10_state.md R21) -/

theorem writeRegister_arg (i : Fin 4) (w : Word) (s : State) :
    writeRegister (0x08 + 4 * i.val) w s = .next { s with args := s.args.set i w } := by
  fin_cases i <;> rfl

theorem readRegister_arg (i : Fin 4) (s : State) : readRegister (0x08 + 4 * i.val) s = s.args[i] := by
  fin_cases i <;> rfl

theorem writeRegister_reserved {o : Nat} (h : 0x18 ≤ o) (w : Word) (s : State) : writeRegister o w s = .next s := by
  obtain ⟨k, rfl⟩ := Nat.exists_eq_add_of_le' h
  rfl

theorem readRegister_reserved {o : Nat} (h : 0x18 ≤ o) (s : State) : readRegister o s = 0 := by
  obtain ⟨k, rfl⟩ := Nat.exists_eq_add_of_le' h
  rfl

theorem writeCommand_ok {w : Word} {i : Instr} (h : decode w = .ok i) (s : State) : writeCommand w s = exec i s := by
  rw [writeCommand, h]

theorem writeCommand_error {w : Word} {e : DecodeError} (h : decode w = .error e) (s : State) :
    writeCommand w s = .next { s with result := .illegalCommand } := by
  rw [writeCommand, h, raise_eq]

theorem commandWordOfBits_toNat (w : Word) : commandWordOfBits 32 w.toNat = w :=
  BitVec.eq_of_toNat_eq (by simp [commandWordOfBits, w.isLt])

/-! ### Accesses the block accepts -/

theorem step_of_pending {s : State} {x : Access} {rest : List Access} (hp : s.pending = x :: rest) :
    step s = hostAccess x { s with pending := rest } := by
  rw [step, hostStep, hp]

/-- Settles O4: CMD is the register at offset 0, and `withFetchWord` places a write to it. -/
theorem stepRunsDecodedCommand : Obligations.StepRunsDecodedCommand := by
  have write {s : State} {place : Place} {w : Word} {rest : List Access}
      (hp : s.pending = .regWrite place 32 w :: rest) (ho : placeOffset s place = some 0x00) :
      step s = writeCommand w { s with pending := rest } := step_regWrite hp ho rfl
  have fetch (s : State) (w : Word) : step (s.withFetchWord 32 w.toNat) = writeCommand w s :=
    write (by rw [withFetchWord_pending, commandWordOfBits_toNat]; rfl) (placeOffset_reg_of_lt _ (by decide))
  refine ⟨fun s place w rest hp ho => ⟨write hp ho, fun i hi => ?_, fun e he => ?_⟩, fetch, fun s w i hi => ?_⟩
  · rw [write hp ho, writeCommand_ok hi]
  · rw [write hp ho, writeCommand_error he]
  · rw [fetch, writeCommand_ok hi]

/-- Settles O6: the offsets of the ARG registers are multiples of 4. -/
theorem argRegistersStoreAndReadBack : Obligations.ArgRegistersStoreAndReadBack := by
  intro s place i v rest ho
  refine ⟨fun hp => ?_, fun hp => ?_⟩
  · rw [step_regWrite hp ho (by omega), writeRegister_arg]
  · rw [step_regRead hp ho (by omega), readRegister_arg]

/-- Settles O7: no offset from 0x18 on is in the register map. -/
theorem reservedOffsetsReadZeroIgnoreWrites : Obligations.ReservedOffsetsReadZeroIgnoreWrites := by
  intro s place o v rest ho reserved _ aligned
  refine ⟨fun hp => ?_, fun hp => ?_⟩
  · rw [step_regWrite hp ho aligned, writeRegister_reserved reserved]
  · rw [step_regRead hp ho aligned, readRegister_reserved reserved]

/-- Settles O8: the register map at the offsets of STATUS and CMD. -/
theorem statusAndCmdAccesses : Obligations.StatusAndCmdAccesses := fun _ _ _ _ =>
  ⟨fun ho => ⟨fun hp => step_regWrite hp ho rfl, fun hp => step_regRead hp ho rfl⟩,
    fun ho hp => step_regRead hp ho rfl⟩

/-! ### The STATUS word (10_state.md R25) -/

theorem statusWord_result_field (s : State) : (statusWord s).extractLsb' 0 4 = resultCode s.result := by
  ext i hi
  have low : i < 32 := by omega
  simp [statusWord, hi, low, BitVec.getLsbD_eq_getElem]

theorem statusWord_phase_field (s : State) : (statusWord s).extractLsb' 4 2 = phaseCode s.uctx.phase := by
  ext i hi
  have low : i < 32 ∧ 4 + i < 32 := by omega
  simp [statusWord, hi, low, BitVec.getLsbD_eq_getElem]

theorem statusWord_high_bits (s : State) : (statusWord s).extractLsb' 6 26 = 0 := by
  ext i hi
  have noPhase : (phaseCode s.uctx.phase).getLsbD (6 + i - 4) = false := BitVec.getLsbD_of_ge _ _ (by omega)
  have noResult : (resultCode s.result).getLsbD (6 + i) = false := BitVec.getLsbD_of_ge _ _ (by omega)
  simp [statusWord, noPhase, noResult]

/-- Success and UNINIT have the code 0. -/
theorem statusWord_eq_zero {s : State} (hr : s.result = .success) (hp : s.uctx.phase = .uninit) : statusWord s = 0 := by
  rw [statusWord, hr, hp]
  rfl

/-- Settles O9: each field of STATUS holds its code. -/
theorem statusFields : Obligations.StatusFields := fun s =>
  ⟨(statusWord_result_field s).trans (by cases s.result <;> rfl),
    (statusWord_phase_field s).trans (by cases s.uctx.phase <;> rfl), statusWord_high_bits s⟩

/-! ### Accesses the block refuses, and accesses that are none of it (10_state.md R29; logs 3 and 9) -/

/-- A refused register access stops the machine by that refusal. -/
theorem step_regAccess_refused {s : State} {place : Place} {width : Nat} {v : Word} {rest : List Access} {r : Refusal}
    (hp : s.pending = .regWrite place width v :: rest ∨ s.pending = .regRead place width :: rest)
    (hr : accessRefusal s place width = some r) : step s = .refused r := by
  rcases hp with hp | hp
  · simp only [step_of_pending hp, hostAccess, hostRegWrite, accessRefusal_withPending, hr]
  · simp only [step_of_pending hp, hostAccess, hostRegRead, accessRefusal_withPending, hr]

theorem accessRefusal_width {s : State} {place : Place} {o width : Nat} (ho : placeOffset s place = some o)
    (hw : width ≠ 32) : accessRefusal s place width = some (.registerAccessWidth width) := by
  simp [accessRefusal, ho, accessWidthOk, hw]

theorem accessRefusal_misaligned {s : State} {place : Place} {o : Nat} (ho : placeOffset s place = some o)
    (ha : o % 4 ≠ 0) : accessRefusal s place 32 = some (.registerAccessMisaligned o) := by
  simp [accessRefusal, ho, accessWidthOk, offsetAligned, ha]

theorem reachesFromBelow_iff {s : State} {place : Place} {width : Nat} :
    reachesFromBelow s place width = true ↔
      ∃ a, place = .bus a ∧ a < busBase s ∧ 8 * busBase s < 8 * a + width := by
  cases place <;> simp [reachesFromBelow]

/-- An access from below begins outside the block. -/
theorem placeOffset_eq_none_of_reachesFromBelow {s : State} {place : Place} {width : Nat}
    (h : reachesFromBelow s place width = true) : placeOffset s place = none := by
  obtain ⟨a, rfl, below, -⟩ := reachesFromBelow_iff.1 h
  exact (placeOffset_bus_eq_none_iff s a).2 (.inl below)

/-- Settles O10: the refusals of `accessRefusal`, by name. -/
theorem narrowOrMisalignedAccessesRefused : Obligations.NarrowOrMisalignedAccessesRefused := by
  refine ⟨fun s place o width v rest ho hp => ⟨fun hw => ?_, ?_⟩, fun s a width v rest below reaches hp => ?_⟩
  · exact step_regAccess_refused hp (accessRefusal_width ho hw)
  · rintro rfl ha
    exact step_regAccess_refused hp (accessRefusal_misaligned ho ha)
  · have fromBelow := reachesFromBelow_iff.2 ⟨a, rfl, below, reaches⟩
    exact ⟨step_regAccess_refused hp (accessRefusal_fromBelow fromBelow), reachesFromBelow_undefined fromBelow⟩

/-- Settles O59: an access the block neither holds nor refuses passes it by. -/
theorem accessOutsideBlockLeavesEngine : Obligations.AccessOutsideBlockLeavesEngine := by
  intro s place width v rest outside ends
  have notReached : ¬ reachesFromBelow s place width = true := fun h => by
    obtain ⟨a, bus, below, reaches⟩ := reachesFromBelow_iff.1 h
    exact absurd (ends a bus below) (by omega)
  have accepted := (accessRefusal_outside outside width).2 (Bool.eq_false_iff.2 notReached)
  refine ⟨fun hp => ?_, fun hp => ⟨Config.elsewhereWord s.draws, ?_⟩⟩
  · simp only [step_of_pending hp, hostAccess, hostRegWrite, accessRefusal_withPending, accepted,
      placeOffset_withPending, outside]
  · simp only [step_of_pending hp, hostAccess, hostRegRead, accessRefusal_withPending, accepted,
      placeOffset_withPending, outside]

/-! ### Which steps go on (60_exceptions.md R208, R219) -/

/-- Every command answers: each of its checks ends it with a result code. -/
theorem exec_answers (i : Instr) (s : State) : ∃ t, exec i s = .next t := by
  cases i with
  | shaInit => exact ⟨_, rfl⟩
  | shaUpdate =>
    simp only [exec, execShaUpdate, raise, finish, ← apply_ite]
    exact ⟨_, rfl⟩
  | shaFinal =>
    simp only [exec, execShaFinal, raise, finish, ← apply_ite]
    exact ⟨_, rfl⟩
  | hmac =>
    simp only [exec, execHmac, raise, finish, ← apply_ite]
    exact ⟨_, rfl⟩
  | cbcCipher =>
    simp only [exec, execCbcCipher]
    cases cbcFailure s <;> exact ⟨_, rfl⟩
  | cbcDecipher =>
    simp only [exec, execCbcDecipher]
    cases cbcFailure s <;> exact ⟨_, rfl⟩
  | kdfDerive =>
    simp only [exec, execKdfDerive, raise, finish, ← apply_ite]
    exact ⟨_, rfl⟩

theorem writeCommand_answers (w : Word) (s : State) : ∃ t, writeCommand w s = .next t := by
  rcases hd : decode w with e | i
  · exact ⟨_, writeCommand_error hd s⟩
  · rw [writeCommand_ok hd]
    exact exec_answers i s

theorem writeRegister_answers (o : Nat) (w : Word) (s : State) : ∃ t, writeRegister o w s = .next t := by
  unfold writeRegister
  split
  · exact writeCommand_answers w s
  all_goals exact ⟨_, rfl⟩

/-- A register write that is not refused goes on; so does a read (`hostRegRead_answers`). -/
theorem hostRegWrite_answers {s : State} {place : Place} {width : Nat} (hr : accessRefusal s place width = none)
    (w : Word) : ∃ t, hostRegWrite place width w s = .next t := by
  simp only [hostRegWrite, hr]
  split
  · exact writeRegister_answers _ w s
  · exact ⟨_, rfl⟩

theorem hostRegRead_answers {s : State} {place : Place} {width : Nat} (hr : accessRefusal s place width = none) :
    ∃ t, hostRegRead place width s = .next t := by
  simp only [hostRegRead, hr]
  split <;> exact ⟨_, rfl⟩

/-- The register accesses without a meaning: those that cover some of the block and are wide, narrow or misaligned
(10_state.md R29). -/
def UndefinedRegAccess (s : State) (place : Place) (width : Nat) : Prop :=
  (∃ o, placeOffset s place = some o ∧ (width ≠ 32 ∨ o % 4 ≠ 0)) ∨
    ∃ a, place = .bus a ∧ a < busBase s ∧ 8 * busBase s < 8 * a + width

/-- The block refuses exactly the accesses without a meaning. -/
theorem accessRefusal_eq_none_iff_defined (s : State) (place : Place) (width : Nat) :
    accessRefusal s place width = none ↔ ¬ UndefinedRegAccess s place width := by
  rw [UndefinedRegAccess, ← reachesFromBelow_iff]
  rcases ho : placeOffset s place with _ | o
  · rw [accessRefusal_outside ho]
    simp
  · have notReached : ¬ reachesFromBelow s place width = true := fun h =>
      Option.some_ne_none o (ho.symm.trans (placeOffset_eq_none_of_reachesFromBelow h))
    rw [accessRefusal_eq_none_iff ho]
    simp [notReached]

/-- Settles O12: register accesses stop exactly where the block refuses them, and every other entry answers. -/
theorem onlyUndefinedHostAccessesStop : Obligations.OnlyUndefinedHostAccessesStop := by
  intro s
  constructor
  · rintro ⟨place, width, v, rest, hp, undefinedAccess⟩
    have hr := mt (accessRefusal_eq_none_iff_defined s place width).1 (not_not.2 undefinedAccess)
    obtain ⟨r, hr⟩ := Option.ne_none_iff_exists'.1 hr
    exact ⟨r, step_regAccess_refused hp hr⟩
  · intro defined
    rcases hp : s.pending with _ | ⟨x, rest⟩
    · exact ⟨s, by rw [step, hostStep, hp]⟩
    rw [GoesOn, step_of_pending hp]
    cases x with
    | regWrite place width w =>
      have accepted := (accessRefusal_eq_none_iff_defined s place width).2 fun bad =>
        defined ⟨place, width, w, rest, .inl hp, bad⟩
      exact hostRegWrite_answers (s := { s with pending := rest }) accepted w
    | regRead place width =>
      have accepted := (accessRefusal_eq_none_iff_defined s place width).2 fun bad =>
        defined ⟨place, width, 0, rest, .inr hp, bad⟩
      exact hostRegRead_answers (s := { s with pending := rest }) accepted
    | memWrite a v => exact ⟨_, rfl⟩
    | memRead a n => exact ⟨_, rfl⟩
    | branchIfFailed target => exact ⟨_, rfl⟩
    | jump target => exact ⟨_, rfl⟩
    | platformReset => exact ⟨_, rfl⟩

/-- Settles O13, along the five things a step can do: three of them leave RESULT. -/
theorem resultChangedOnlyByCommands : Obligations.ResultChangedOnlyByCommands := by
  intro s t h changed
  rcases step_cases h with ⟨-, rfl⟩ | ⟨rest, place, w, hp, ho, -⟩ | ⟨rest, hp, -⟩ | ⟨rest, a, v, -, rfl⟩ | ht
  · exact absurd rfl changed
  · exact ⟨_, rest, hp, .inr ⟨place, w, rfl, ho⟩⟩
  · exact ⟨_, rest, hp, .inl rfl⟩
  · exact absurd rfl changed
  · exact absurd (congrArg State.result ht) changed

/-! ### Reset (10_state.md R40) -/

/-- Settles O16: `State.reset` and `resetEngine` give the listed values. -/
theorem resetLeavesTheListedValues : Obligations.ResetLeavesTheListedValues := by
  refine ⟨⟨statusWord_eq_zero rfl rfl, rfl, rfl, rfl, rfl⟩, fun s rest hp => ?_⟩
  exact ⟨_, step_of_pending hp, statusWord_eq_zero rfl rfl, rfl, rfl, rfl, rfl, rfl, rfl, rfl, rfl, rfl, rfl⟩

end Sys2Proof.Machine

/-! What a command does to the state, said once for all seven, and the invariant of the machine (10_state.md R23, R32,
R33; 20_memory.md R50). -/

namespace Sys2Proof.Machine

/-! ### The effect of a command -/

/-- The memory after a command that executes normally (30_encoding.md R74, the last column). -/
def storedMem : Instr → State → Memory
  | .shaInit, s => s.mem
  | .shaUpdate, s => s.mem
  | .shaFinal, s => Memory.writeBytes (arg s 0) (finalizeDigest s.lenMode s.uctx.ctx) s.mem
  | .hmac, s => Memory.writeBytes (arg s 3)
      (hmacSha256 s.lenMode (memRead s (arg s 0) 16) (memRead s (arg s 1) (arg s 2))) s.mem
  | .cbcCipher, s => (cbcEncryptLoop (Config.encrypt (readBlock s (arg s 0))) (arg s 3 / 16) (arg s 2)
      (readBlock s (arg s 1)) s).mem
  | .cbcDecipher, s => (cbcDecryptLoop (Config.decrypt (readBlock s (arg s 0))) (arg s 3 / 16) (arg s 2)
      (readBlock s (arg s 1)) s).mem
  | .kdfDerive, s => Memory.writeBytes (arg s 3)
      (kdfMaterial Config.encrypt s.lenMode (readBlock s (arg s 0)) (readBlock s (arg s 2))) s.mem

/-- The user context after a command that executes normally (40_sha256.md R104). -/
def nextUctx : Instr → State → UserContext
  | .shaInit, _ => { phase := .active, ctx := initContext }
  | .shaUpdate, s => { s.uctx with ctx := absorb s.uctx.ctx (memRead s (arg s 0) (arg s 1)) }
  | .shaFinal, s => { phase := .finalized, ctx := freeContext s.draws }
  | _, s => s.uctx

/-- The draw counter after a command that executes normally: only SHA_FINAL draws (log 8). -/
def nextDraws : Instr → State → Nat
  | .shaFinal, s => s.draws + 1
  | _, s => s.draws

/-- A command that answers either changed RESULT only or was Ready and had its whole effect. -/
theorem exec_cases {i : Instr} {s t : State} (h : exec i s = .next t) :
    (∃ r, t = { s with result := r }) ∨
    (Ready i s ∧ t = { s with
      result := .success, uctx := nextUctx i s, mem := storedMem i s, draws := nextDraws i s }) := by
  cases i with
  | shaInit => exact .inr ⟨trivial, execShaInit_cases h⟩
  | shaUpdate =>
    rcases execShaUpdate_cases h with ⟨ht, -⟩ | ⟨ht, -⟩ | ⟨ht, -⟩ | ⟨ht, -⟩ | done
    iterate 4 exact .inl ⟨_, ht⟩
    exact .inr done
  | shaFinal =>
    rcases execShaFinal_cases h with ⟨ht, -⟩ | ⟨ht, -⟩ | ⟨ht, -⟩ | ⟨ht, -⟩ | done
    iterate 4 exact .inl ⟨_, ht⟩
    exact .inr done
  | hmac =>
    rcases execHmac_cases h with ⟨ht, -⟩ | ⟨ht, -⟩ | done
    iterate 2 exact .inl ⟨_, ht⟩
    exact .inr done
  | cbcCipher =>
    rcases execCbcCipher_cases h with ⟨ht, -⟩ | ⟨ht, -⟩ | done
    iterate 2 exact .inl ⟨_, ht⟩
    exact .inr done
  | cbcDecipher =>
    rcases execCbcDecipher_cases h with ⟨ht, -⟩ | ⟨ht, -⟩ | done
    iterate 2 exact .inl ⟨_, ht⟩
    exact .inr done
  | kdfDerive =>
    rcases execKdfDerive_cases h with ⟨ht, -⟩ | ⟨ht, -⟩ | done
    iterate 2 exact .inl ⟨_, ht⟩
    exact .inr done

/-- Settles O22: RESULT, the user context, memory and the draw counter are all a command changes. -/
theorem commandsKeepOperandsAndHostSide : Obligations.CommandsKeepOperandsAndHostSide := by
  intro i s t h
  rcases exec_cases h with ⟨r, rfl⟩ | ⟨-, rfl⟩
  · exact ⟨rfl, rfl, rfl, rfl, rfl, rfl, rfl, rfl⟩
  · exact ⟨rfl, rfl, rfl, rfl, rfl, rfl, rfl, rfl⟩

/-! ### Absorbing (40_sha256.md R107) -/

/-- Absorbing a byte neither reads nor changes COUNT, which `absorb` adds to once at its end. -/
theorem foldl_absorbByte_withCount (c : HashContext) (n : BitVec 64) (m : List Byte) :
    m.foldl absorbByte { c with count := n } = { m.foldl absorbByte c with count := n } := by
  induction m generalizing c with
  | nil => rfl
  | cons b m ih =>
    have one : absorbByte { c with count := n } b = { absorbByte c b with count := n } := by
      simp only [absorbByte]
      split <;> rfl
    rw [List.foldl_cons, one, ih, List.foldl_cons]

theorem absorb_append (c : HashContext) (m1 m2 : List Byte) :
    absorb c (m1 ++ m2) = absorb (absorb c m1) m2 := by
  simp only [absorb, foldl_absorbByte_withCount, List.foldl_append, List.length_append, BitVec.ofNat_add,
    BitVec.add_assoc]

theorem absorb_initContext_count {m : List Byte} (h : m.length ≤ 2 ^ 61 - 1) :
    (absorb initContext m).count.toNat = m.length := by
  have fits : m.length < 2 ^ 64 := by omega
  show (0#64 + BitVec.ofNat 64 m.length).toNat = m.length
  rw [BitVec.zero_add, BitVec.toNat_ofNat, Nat.mod_eq_of_lt fits]

/-! ### The fields of an absorbed context (10_state.md R32) -/

/-- Appending bytes changes no block that was full before. -/
theorem fullBlock_append {m : List Byte} {j : Nat} (h : j < m.length / 64) (l : List Byte) :
    fullBlock (m ++ l) j = fullBlock m j := by
  refine Vector.ext fun i hi => ?_
  simp only [fullBlock, Vector.getElem_ofFn]
  exact List.getD_append _ _ _ _ (by omega)

/-- The chaining value of the first `n` full blocks sees only those. -/
theorem foldl_compress_fullBlock_append {m : List Byte} {n : Nat} (h : n ≤ m.length / 64) (l : List Byte) :
    (List.range n).foldl (fun h j => compress h (fullBlock (m ++ l) j)) shaIV =
      (List.range n).foldl (fun h j => compress h (fullBlock m j)) shaIV := by
  refine List.foldl_ext _ _ _ fun w j hj => ?_
  rw [fullBlock_append ((List.mem_range.1 hj).trans_le h)]

/-- A byte that fills no block leaves the chaining value. -/
theorem chainingValue_concat_of_partial {m : List Byte} (h : m.length % 64 ≠ 63) (b : Byte) :
    chainingValue (m ++ [b]) = chainingValue m := by
  have blocks : (m ++ [b]).length / 64 = m.length / 64 := by
    rw [List.length_append, List.length_singleton]
    omega
  rw [chainingValue, blocks, foldl_compress_fullBlock_append le_rfl, chainingValue]

/-- The byte that fills a block compresses it. -/
theorem chainingValue_concat_of_full {m : List Byte} (h : m.length % 64 = 63) (b : Byte) :
    chainingValue (m ++ [b]) = compress (chainingValue m) (fullBlock (m ++ [b]) (m.length / 64)) := by
  have blocks : (m ++ [b]).length / 64 = m.length / 64 + 1 := by
    rw [List.length_append, List.length_singleton]
    omega
  rw [chainingValue, blocks, List.range_succ, List.foldl_append, foldl_compress_fullBlock_append le_rfl]
  rfl

/-- What absorbing `m` from SHA_INIT has done to the context, COUNT apart (10_state.md R32). -/
structure HoldsMessage (m : List Byte) (c : HashContext) : Prop where
  pendLen : c.pendLen.val = m.length % 64
  words : c.words = chainingValue m
  pending : ∀ (i : Nat) (h : i < 64), i < m.length % 64 → c.blk[i] = m.getD (64 * (m.length / 64) + i) 0

theorem holdsMessage_init : HoldsMessage [] initContext where
  pendLen := rfl
  words := rfl
  pending := fun _ _ h => absurd h (Nat.not_lt_zero _)

/-- After the next byte is stored, BLK holds one more byte of the message. -/
theorem HoldsMessage.stored {m : List Byte} {c : HashContext} (hc : HoldsMessage m c) (b : Byte) (i : Nat) (h : i < 64)
    (hi : i < m.length % 64 + 1) :
    (c.blk.setIfInBounds c.pendLen.val b)[i] = (m ++ [b]).getD (64 * (m.length / 64) + i) 0 := by
  rw [Vector.getElem_setIfInBounds, hc.pendLen]
  rcases Nat.lt_succ_iff_lt_or_eq.1 hi with old | rfl
  · rw [if_neg old.ne', hc.pending i h old, List.getD_append _ _ _ _ (by omega)]
  · rw [if_pos rfl, Nat.div_add_mod, List.getD_append_right _ _ _ _ le_rfl, Nat.sub_self]
    rfl

/-- One more byte absorbed is one more byte of the message held. -/
theorem HoldsMessage.concat {m : List Byte} {c : HashContext} (hc : HoldsMessage m c) (b : Byte) :
    HoldsMessage (m ++ [b]) (absorbByte c b) := by
  have len : (m ++ [b]).length = m.length + 1 := by simp
  have pend : (c.pendLen + 1).val = m.length % 64 + 1 := by
    have := hc.pendLen
    rw [Fin.val_add_one_of_lt' (by omega), this]
  by_cases full : m.length % 64 = 63
  · have fills : c.pendLen + 1 = 64 := Fin.ext (by rw [pend, full]; rfl)
    have block : c.blk.setIfInBounds c.pendLen.val b = fullBlock (m ++ [b]) (m.length / 64) :=
      Vector.ext fun i hi => by
        rw [hc.stored b i hi (by omega), fullBlock, Vector.getElem_ofFn]
    rw [absorbByte, if_pos fills]
    exact {
      pendLen := by rw [len]; show 0 = _; omega
      words := by rw [chainingValue_concat_of_full full, hc.words, block]
      pending := fun i _ hi => by omega }
  · have room : c.pendLen + 1 ≠ 64 := fun h => full (by rw [h] at pend; change 64 = _ at pend; omega)
    have sameBlock : (m ++ [b]).length / 64 = m.length / 64 := by omega
    rw [absorbByte, if_neg room]
    exact {
      pendLen := by rw [pend, len]; omega
      words := by rw [chainingValue_concat_of_partial full, hc.words]
      pending := fun i h hi => by rw [sameBlock, hc.stored b i h (by omega)] }

theorem holdsMessage_absorb (m : List Byte) : HoldsMessage m (absorb initContext m) := by
  suffices h : HoldsMessage m (m.foldl absorbByte initContext) from ⟨h.pendLen, h.words, h.pending⟩
  induction m using List.reverseRecOn with
  | nil => exact holdsMessage_init
  | append_singleton m b ih =>
    rw [List.foldl_concat]
    exact ih.concat b

/-- Settles O36, by induction over the message: each byte takes its place in BLK or fills it. -/
theorem absorbedContextFields : Obligations.AbsorbedContextFields := by
  intro m hm
  obtain ⟨pendLen, words, pending⟩ := holdsMessage_absorb m
  exact ⟨absorb_initContext_count hm, pendLen, words, pending⟩

/-! ### The invariant -/

/-- The memory part of the invariant: canonical form, and no address at or above `n`. -/
def Memory.CanonicalBelow (n : Nat) (m : Memory) : Prop := Memory.wf m = true ∧ ∀ c ∈ m, c.1 < n

/-- A write to a valid region keeps memory canonical and inside `M`. -/
theorem Memory.CanonicalBelow.writeBytes {m : Memory} {n a len : Nat} {v : List Byte} (h : CanonicalBelow n m)
    (hr : RegionValid n a len) (hv : v.length = len) : CanonicalBelow n (Memory.writeBytes a v m) := by
  obtain ⟨canonical, inside⟩ := h
  refine ⟨writeBytes_wf canonical a v, writeBytes_inside inside ?_⟩
  rcases hr with empty | ⟨-, fits⟩
  · exact .inl (List.length_eq_zero_iff.1 (hv.trans empty))
  · exact .inr (hv ▸ fits)

/-- The whole blocks of a valid region lie inside `M`. -/
theorem blocks_inside {n a len : Nat} (h : RegionValid n a len) : len / 16 = 0 ∨ a + 16 * (len / 16) ≤ n := by
  omega

/-- A command that is Ready keeps memory canonical and inside `M`: it stores to a region it has checked. -/
theorem storedMem_canonicalBelow {i : Instr} {s : State} (hr : Ready i s)
    (h : Memory.CanonicalBelow s.memSize s.mem) : Memory.CanonicalBelow s.memSize (storedMem i s) := by
  cases i with
  | shaInit => exact h
  | shaUpdate => exact h
  | shaFinal =>
    obtain ⟨-, -, digest, -⟩ := hr
    exact h.writeBytes digest (finalizeDigest_length _ _)
  | hmac =>
    obtain ⟨-, -, -, -, -, mac⟩ := hr
    exact h.writeBytes mac (hmacSha256_length _ _ _)
  | cbcCipher =>
    obtain ⟨-, -, -, -, -, -, buf⟩ := hr
    obtain ⟨canonical, inside⟩ := h
    exact ⟨cbcEncryptLoop_wf _ _ _ _ canonical, cbcEncryptLoop_inside _ _ _ _ inside (blocks_inside buf)⟩
  | cbcDecipher =>
    obtain ⟨-, -, -, -, -, -, buf⟩ := hr
    obtain ⟨canonical, inside⟩ := h
    exact ⟨cbcDecryptLoop_wf _ _ _ _ canonical, cbcDecryptLoop_inside _ _ _ _ inside (blocks_inside buf)⟩
  | kdfDerive =>
    obtain ⟨-, -, -, -, -, -, out⟩ := hr
    exact h.writeBytes out (kdfMaterial_length _ _ _ _)

/-- A command that is Ready leaves an ACTIVE context one that a message of admissible length leaves: SHA_INIT starts
with the empty message and SHA_UPDATE appends to it within the limit of 40_sha256.md R108. -/
theorem nextUctx_contextReached {i : Instr} {s : State} (hr : Ready i s) (h : ContextReached s.uctx) :
    ContextReached (nextUctx i s) := by
  cases i with
  | shaInit => exact fun _ => ⟨[], Nat.zero_le _, (absorb_nil_words _).symm⟩
  | shaUpdate =>
    obtain ⟨active, -, limit, -, -⟩ := hr
    obtain ⟨m, hm, hc⟩ := h active
    rw [hc, absorb_initContext_count hm] at limit
    exact fun _ => ⟨m ++ memRead s (arg s 0) (arg s 1), by simpa using limit, by rw [absorb_append, ← hc]; rfl⟩
  | shaFinal => exact fun active => nomatch active
  | hmac => exact h
  | cbcCipher => exact h
  | cbcDecipher => exact h
  | kdfDerive => exact h

/-- The invariant is about memory, MEM_SIZE and the user context alone. -/
theorem State.Inv.of_eq {s t : State} (h : s.Inv) (hm : t.mem = s.mem) (hn : t.memSize = s.memSize)
    (hu : t.uctx = s.uctx) : t.Inv where
  memCanonical := hm ▸ h.memCanonical
  memInside := hm ▸ hn ▸ h.memInside
  memSizeBounds := hn ▸ h.memSizeBounds
  contextReached := hu ▸ h.contextReached

theorem exec_keeps_inv {i : Instr} {s t : State} (hs : s.Inv) (h : exec i s = .next t) : t.Inv := by
  rcases exec_cases h with ⟨r, rfl⟩ | ⟨ready, rfl⟩
  · exact hs.of_eq rfl rfl rfl
  · obtain ⟨canonical, inside⟩ := storedMem_canonicalBelow ready ⟨hs.memCanonical, hs.memInside⟩
    exact ⟨canonical, inside, hs.memSizeBounds, nextUctx_contextReached ready hs.contextReached⟩

theorem writeCommand_keeps_inv {w : Word} {s t : State} (hs : s.Inv) (h : writeCommand w s = .next t) : t.Inv := by
  rcases hd : decode w with e | i
  · cases (writeCommand_error hd s).symm.trans h
    exact hs.of_eq rfl rfl rfl
  · exact exec_keeps_inv hs ((writeCommand_ok hd s).symm.trans h)

theorem resetEngine_inv {s : State} (hs : s.Inv) : (resetEngine s).Inv where
  memCanonical := Memory.wf_nil
  memInside := List.forall_mem_nil _
  memSizeBounds := hs.memSizeBounds
  contextReached := fun active => nomatch active

theorem hostMemWrite_inv {s : State} (hs : s.Inv) (a : Nat) (v : List Byte) : (hostMemWrite a v s).Inv where
  memCanonical := hostMemWrite_wf hs.memCanonical
  memInside := hostMemWrite_mem_inside hs.memInside
  memSizeBounds := hs.memSizeBounds
  contextReached := hs.contextReached

/-- Settles O54, along the five things a step can do (`step_cases`). -/
theorem stepKeepsInvariant : Obligations.StepKeepsInvariant := by
  intro s t hs h
  have popped (rest : List Access) : { s with pending := rest }.Inv := hs.of_eq rfl rfl rfl
  rcases step_cases h with ⟨-, rfl⟩ | ⟨rest, place, w, -, -, hw⟩ | ⟨rest, -, rfl⟩ | ⟨rest, a, v, -, rfl⟩ | ht
  · exact hs
  · exact writeCommand_keeps_inv (popped rest) hw
  · exact resetEngine_inv (popped rest)
  · exact hostMemWrite_inv (popped rest) a v
  · rw [ht]
    exact hs.of_eq rfl rfl rfl

/-- Settles O55: no byte of `M` is known, MEM_SIZE is inside its bounds by construction, and the context is UNINIT. -/
theorem resetMeetsInvariant : Obligations.ResetMeetsInvariant where
  memCanonical := Memory.wf_nil
  memInside := List.forall_mem_nil _
  memSizeBounds := by
    have := Config.memSizeLess2.isLt
    rw [reset_memSize, Config.memSize]
    omega
  contextReached := fun active => nomatch active

/-- Settles O56: the fields of the message the invariant gives (`holdsMessage_absorb`). -/
theorem invariantRulesOutGuard : Obligations.InvariantRulesOutGuard := by
  intro s hs active
  obtain ⟨m, hm, hc⟩ := hs.contextReached active
  have count : s.uctx.ctx.count.toNat = m.length := hc ▸ absorb_initContext_count hm
  have pend : s.uctx.ctx.pendLen.val = m.length % 64 := hc ▸ (holdsMessage_absorb m).pendLen
  exact ⟨by omega, by rw [pend, count], count ▸ hm, decide_eq_false (by omega)⟩

end Sys2Proof.Machine

/-! Who reaches which bytes of `M` (20_memory.md R50 to R63), and when a command ends with which result code
(60_exceptions.md R207). -/

namespace Sys2Proof.Machine

/-! ### The host's accesses to `M` -/

/-- Settles O60, by the laws of `hostMemWrite` and `hostByte`. -/
theorem hostAccessReachesOnlyMemory : Obligations.HostAccessReachesOnlyMemory := by
  refine fun s a rest => ⟨fun v hp => ?_, fun n hp => ?_⟩
  · exact ⟨_, step_of_pending hp, rfl, fun x outside => memByte_hostMemWrite_outside outside,
      fun i hi inM => memByte_hostMemWrite_byte hi inM⟩
  · refine ⟨_, _, step_of_pending hp, rfl, by simp, fun i hi inM => ?_⟩
    have byte : hostByte { s with pending := rest } (a + i) = memByte s (a + i) := if_pos inM
    simp [hi, byte]

/-- A step on a host write inside `M` is the engine's memory write. -/
theorem step_memWrite_inside {s : State} {a : Nat} {v : List Byte} {rest : List Access}
    (hp : s.pending = .memWrite a v :: rest) (inM : a + v.length ≤ s.memSize) :
    step s = .next (memWrite a v { s with pending := rest }) :=
  (step_of_pending hp).trans (congrArg Host.Outcome.next (hostMemWrite_inside (s := { s with pending := rest }) inM))

/-- A step on a host read inside `M` returns the bytes of `M`. -/
theorem step_memRead_inside {s : State} {a n : Nat} {rest : List Access}
    (hp : s.pending = .memRead a n :: rest) (inM : a + n ≤ s.memSize) :
    step s = .next { s with pending := rest, readData := .memory (memRead s a n), draws := s.draws + 1 } :=
  (step_of_pending hp).trans (congrArg Host.Outcome.next (hostMemRead_inside inM))

/-- Settles O14: inside `M`, a read after a write gives back what was written. -/
theorem hostMemoryReadsBackWrites : Obligations.HostMemoryReadsBackWrites := by
  intro s a v rest inM hp
  refine ⟨_, _, step_memWrite_inside hp inM, step_memRead_inside rfl inM, ?_, rfl,
    fun x outside => memByte_memWrite_outside outside _, rfl, rfl, rfl⟩
  exact congrArg ReadData.memory (memRead_memWrite_same a v _)

/-! ### The result code of a command (60_exceptions.md R207) -/

/-- Settles O20: a command either changed RESULT only or ended with Success (`exec_cases`). -/
theorem failedCommandChangesOnlyResult : Obligations.FailedCommandChangesOnlyResult := by
  intro w s t h failed
  rcases hd : decode w with e | i
  · cases (writeCommand_error hd s).symm.trans h
    rfl
  · rcases exec_cases ((writeCommand_ok hd s).symm.trans h) with ⟨r, rfl⟩ | ⟨-, rfl⟩
    · rfl
    · exact absurd rfl failed

/-- The command needs an ACTIVE context and has none (R207, item 2). -/
def BadContext (i : Instr) (s : State) : Prop := (i = .shaUpdate ∨ i = .shaFinal) ∧ s.uctx.phase ≠ .active

/-- A null pointer, or a length that is not allowed (R207, item 3). -/
def BadParameter (i : Instr) (s : State) : Prop :=
  match i with
  | .shaInit => False
  | .shaUpdate => (0 < arg s 1 ∧ arg s 0 = 0) ∨ 2 ^ 61 - 1 < s.uctx.ctx.count.toNat + arg s 1
  | .shaFinal => arg s 0 = 0
  | .hmac => arg s 0 = 0 ∨ (arg s 1 = 0 ∧ 0 < arg s 2) ∨ arg s 3 = 0
  | .cbcCipher => arg s 0 = 0 ∨ arg s 1 = 0 ∨ arg s 2 = 0 ∨ arg s 3 % 16 ≠ 0
  | .cbcDecipher => arg s 0 = 0 ∨ arg s 1 = 0 ∨ arg s 2 = 0 ∨ arg s 3 % 16 ≠ 0
  | .kdfDerive => arg s 0 = 0 ∨ arg s 1 = 0 ∨ arg s 2 = 0 ∨ arg s 3 = 0

/-- Some region the command would access is not valid (R207, item 4). -/
def BadRegion (i : Instr) (s : State) : Prop := ∃ r ∈ regions i s, ¬ RegionValid s.memSize r.1 r.2

/-- The command takes the guard: it would absorb or finalize on a corrupted PEND_LEN (R207, item 5). -/
def TakesGuard (i : Instr) (s : State) : Prop := (i = .shaUpdate ∨ i = .shaFinal) ∧ 64 ≤ s.uctx.ctx.pendLen.val

theorem badRegion_iff_of_one {i : Instr} {s : State} {r : Nat × Nat} (h : regions i s = [r]) :
    BadRegion i s ↔ ¬ RegionValid s.memSize r.1 r.2 := by
  simp only [BadRegion, h, List.mem_singleton, exists_eq_left]

theorem badRegion_iff_of_three {i : Instr} {s : State} {r1 r2 r3 : Nat × Nat} (h : regions i s = [r1, r2, r3]) :
    BadRegion i s ↔ ¬ (RegionValid s.memSize r1.1 r1.2 ∧ RegionValid s.memSize r2.1 r2.2 ∧
      RegionValid s.memSize r3.1 r3.2) := by
  simp only [BadRegion, h, List.exists_mem_cons_iff, List.not_mem_nil, false_and, exists_false, or_false, not_and_or]

/-- The state after a command that executes normally. -/
def completed (i : Instr) (s : State) : State :=
  { s with result := .success, uctx := nextUctx i s, mem := storedMem i s, draws := nextDraws i s }

theorem memByte_completed (i : Instr) (s : State) (a : Nat) :
    memByte (completed i s) a = memByte { s with mem := storedMem i s } a := rfl

/-- The five ways a command ends, in the order of its checks. -/
inductive CommandEnds (i : Instr) (s : State) : State → Prop where
  | badContext : BadContext i s → CommandEnds i s { s with result := .invalidContext }
  | badParameter : ¬ BadContext i s → BadParameter i s → CommandEnds i s { s with result := .invalidParameter }
  | badRegion : ¬ BadContext i s → ¬ BadParameter i s → BadRegion i s → CommandEnds i s { s with result := .busError }
  | guard : ¬ BadContext i s → ¬ BadParameter i s → ¬ BadRegion i s → TakesGuard i s →
      CommandEnds i s { s with result := .success }
  | done : Ready i s → CommandEnds i s (completed i s)

/-- A command executes normally exactly when none of the checks before ends it. -/
theorem ready_iff (i : Instr) (s : State) :
    Ready i s ↔ ¬ BadContext i s ∧ ¬ BadParameter i s ∧ ¬ BadRegion i s ∧ ¬ TakesGuard i s := by
  cases i <;> simp [Ready, RegionValid, BadContext, BadParameter, BadRegion, TakesGuard, regions]
  all_goals omega

/-- The commands without a context check or a guard: what their inversion lemmas say is how they end. -/
theorem commandEnds_of_cases {i : Instr} {s t : State} {r1 r2 r3 : Nat × Nat} (noContext : ¬ BadContext i s)
    (hr : regions i s = [r1, r2, r3])
    (h : (t = { s with result := .invalidParameter } ∧ BadParameter i s) ∨
      (t = { s with result := .busError } ∧ ¬ BadParameter i s ∧ ¬ (RegionValid s.memSize r1.1 r1.2 ∧
        RegionValid s.memSize r2.1 r2.2 ∧ RegionValid s.memSize r3.1 r3.2)) ∨
      (Ready i s ∧ t = completed i s)) :
    CommandEnds i s t := by
  rcases h with ⟨rfl, bad⟩ | ⟨rfl, good, bad⟩ | ⟨ready, rfl⟩
  · exact .badParameter noContext bad
  · exact .badRegion noContext good ((badRegion_iff_of_three hr).2 bad)
  · exact .done ready

/-- Every command answers in one of the five ways. -/
theorem commandEnds_of_exec {i : Instr} {s t : State} (h : exec i s = .next t) : CommandEnds i s t := by
  cases i with
  | shaInit =>
    rw [execShaInit_cases h]
    exact .done trivial
  | shaUpdate =>
    rcases execShaUpdate_cases h with ⟨rfl, inactive⟩ | ⟨rfl, active, bad⟩ | ⟨rfl, active, ptr, len, bad⟩ |
      ⟨rfl, active, ptr, len, valid, full⟩ | ⟨ready, rfl⟩
    · exact .badContext ⟨.inl rfl, inactive⟩
    · exact .badParameter (fun c => c.2 active) bad
    · exact .badRegion (fun c => c.2 active) (not_or.2 ⟨ptr, not_lt.2 len⟩) ((badRegion_iff_of_one rfl).2 bad)
    · exact .guard (fun c => c.2 active) (not_or.2 ⟨ptr, not_lt.2 len⟩)
        (mt (badRegion_iff_of_one rfl).1 (not_not.2 valid)) ⟨.inl rfl, full⟩
    · exact .done ready
  | shaFinal =>
    rcases execShaFinal_cases h with ⟨rfl, inactive⟩ | ⟨rfl, active, bad⟩ | ⟨rfl, active, ptr, bad⟩ |
      ⟨rfl, active, ptr, valid, full⟩ | ⟨ready, rfl⟩
    · exact .badContext ⟨.inr rfl, inactive⟩
    · exact .badParameter (fun c => c.2 active) bad
    · exact .badRegion (fun c => c.2 active) ptr ((badRegion_iff_of_one rfl).2 bad)
    · exact .guard (fun c => c.2 active) ptr (mt (badRegion_iff_of_one rfl).1 (not_not.2 valid)) ⟨.inr rfl, full⟩
    · exact .done ready
  | hmac => exact commandEnds_of_cases (by simp [BadContext]) rfl (execHmac_cases h)
  | cbcCipher => exact commandEnds_of_cases (by simp [BadContext]) rfl (execCbcCipher_cases h)
  | cbcDecipher => exact commandEnds_of_cases (by simp [BadContext]) rfl (execCbcDecipher_cases h)
  | kdfDerive => exact commandEnds_of_cases (by simp [BadContext]) rfl (execKdfDerive_cases h)

/-- A command that is Ready has its whole effect. -/
theorem exec_of_ready {i : Instr} {s t : State} (ready : Ready i s) (h : exec i s = .next t) : t = completed i s := by
  obtain ⟨noContext, noParameter, noRegion, noGuard⟩ := (ready_iff i s).1 ready
  cases commandEnds_of_exec h with
  | badContext c => exact absurd c noContext
  | badParameter _ p => exact absurd p noParameter
  | badRegion _ _ r => exact absurd r noRegion
  | guard _ _ _ g => exact absurd g noGuard
  | done _ => rfl

/-- A command that is not Ready changes RESULT only. -/
theorem exec_of_not_ready {i : Instr} {s t : State} (notReady : ¬ Ready i s) (h : exec i s = .next t) :
    ∃ r, t = { s with result := r } :=
  (exec_cases h).resolve_right fun ⟨ready, _⟩ => notReady ready

/-- The result code is that of the first check that applies, and Success when none does. -/
theorem exec_result {i : Instr} {s t : State} (h : exec i s = .next t) :
    (BadContext i s → t.result = .invalidContext) ∧
    (¬ BadContext i s → BadParameter i s → t.result = .invalidParameter) ∧
    (¬ BadContext i s → ¬ BadParameter i s → BadRegion i s → t.result = .busError) ∧
    (¬ BadContext i s → ¬ BadParameter i s → ¬ BadRegion i s → t.result = .success) := by
  cases commandEnds_of_exec h with
  | badContext c => exact ⟨fun _ => rfl, (absurd c ·), (absurd c ·), (absurd c ·)⟩
  | badParameter nc p => exact ⟨(absurd · nc), fun _ _ => rfl, fun _ => (absurd p ·), fun _ => (absurd p ·)⟩
  | badRegion nc np r => exact ⟨(absurd · nc), fun _ => (absurd · np), fun _ _ _ => rfl, fun _ _ => (absurd r ·)⟩
  | guard nc np nr _ => exact ⟨(absurd · nc), fun _ => (absurd · np), fun _ _ => (absurd · nr), fun _ _ _ => rfl⟩
  | done ready =>
    obtain ⟨nc, np, nr, -⟩ := (ready_iff i s).1 ready
    exact ⟨(absurd · nc), fun _ => (absurd · np), fun _ _ => (absurd · nr), fun _ _ _ => rfl⟩

/-! ### Address 0 (20_memory.md R52) -/

/-- A command that is Ready accesses valid regions only. -/
theorem regionValid_of_ready {i : Instr} {s : State} (ready : Ready i s) {r : Nat × Nat} (hr : r ∈ regions i s) :
    RegionValid s.memSize r.1 r.2 := by
  obtain ⟨-, -, noRegion, -⟩ := (ready_iff i s).1 ready
  exact not_not.1 fun bad => noRegion ⟨r, hr, bad⟩

theorem readRegions_subset_regions (i : Instr) (s : State) : readRegions i s ⊆ regions i s := by
  cases i <;> simp [readRegions, regions]

/-- A command stores to one of the regions it checks, or nowhere. -/
theorem storedRegion_mem_regions (i : Instr) (s : State) : storedRegion i s ∈ regions i s ∨ (storedRegion i s).2 = 0 := by
  cases i <;> simp [storedRegion, regions]

/-- No valid region holds the null address. -/
theorem not_inRegion_zero_of_regionValid {n : Nat} {r : Nat × Nat} (h : RegionValid n r.1 r.2) : ¬ InRegion 0 r := by
  rintro ⟨lo, hi⟩
  omega

theorem not_inRegion_iff {a : Nat} {r : Nat × Nat} : ¬ InRegion a r ↔ a < r.1 ∨ r.1 + r.2 ≤ a := by omega

/-- A command that completes leaves the bytes outside its stored region alone. -/
theorem memByte_completed_outside {i : Instr} {s : State} {a : Nat} (outside : ¬ InRegion a (storedRegion i s)) :
    memByte (completed i s) a = memByte s a := by
  rw [not_inRegion_iff] at outside
  rw [memByte_completed]
  cases i with
  | shaInit => rfl
  | shaUpdate => rfl
  | shaFinal => exact memByte_memWrite_outside outside s
  | hmac => exact memByte_memWrite_outside outside s
  | cbcCipher =>
    simp only [storedMem, ← cbcEncryptLoop_frame]
    exact memByte_cbcEncryptLoop_outside _ _ _ s (by dsimp only [storedRegion] at outside; omega)
  | cbcDecipher =>
    simp only [storedMem, ← cbcDecryptLoop_frame]
    exact memByte_cbcDecryptLoop_outside _ _ _ s (by dsimp only [storedRegion] at outside; omega)
  | kdfDerive => exact memByte_memWrite_outside outside s

/-- Settles O24: a command accesses regions it has found valid, and those do not hold address 0. -/
theorem nullAddressNeverAccessed : Obligations.NullAddressNeverAccessed := by
  intro i s t h
  refine ⟨?_, fun ready r hr => ?_⟩
  · rcases exec_cases h with ⟨r, rfl⟩ | ⟨ready, rfl⟩
    · rfl
    · refine memByte_completed_outside fun zero => ?_
      rcases storedRegion_mem_regions i s with checked | empty
      · exact not_inRegion_zero_of_regionValid (regionValid_of_ready ready checked) zero
      · exact not_inRegion_zero_of_regionValid (n := s.memSize) (.inl empty) zero
  · exact not_inRegion_zero_of_regionValid (regionValid_of_ready ready (readRegions_subset_regions i s hr))

/-! ### What a command sees (20_memory.md R59) -/

/-- The bytes a write covers do not depend on the state before. -/
theorem memByte_memWrite_covered {a x : Nat} {v : List Byte} (h : a ≤ x ∧ x < a + v.length) (s t : State) :
    memByte (memWrite a v s) x = memByte (memWrite a v t) x := by
  obtain ⟨k, rfl⟩ := Nat.exists_eq_add_of_le h.1
  have covered : k < v.length := by omega
  rw [memByte_memWrite_inside covered, memByte_memWrite_inside covered]

/-- The same write keeps two states in agreement where they agreed. -/
theorem memByte_writeBlock_congr {s t : State} {x : Nat} (h : memByte s x = memByte t x) (a : Nat) (v : Block) :
    memByte (writeBlock a v s) x = memByte (writeBlock a v t) x := by
  by_cases outside : x < a ∨ a + 16 ≤ x
  · rw [memByte_writeBlock_outside outside, memByte_writeBlock_outside outside, h]
  · exact memByte_memWrite_covered (by simp; omega) s t

/-- Encryption keeps two states that agree on its blocks in agreement where they agreed. -/
theorem memByte_cbcEncryptLoop_congr (enc : Block → Block) (n : Nat) {a x : Nat} (chain : Block) {s t : State}
    (blocks : ∀ y, a ≤ y → y < a + 16 * n → memByte s y = memByte t y) (h : memByte s x = memByte t x) :
    memByte (cbcEncryptLoop enc n a chain s) x = memByte (cbcEncryptLoop enc n a chain t) x := by
  induction n generalizing a chain s t with
  | zero => exact h
  | succ n ih =>
    rw [cbcEncryptLoop, cbcEncryptLoop, readBlock_congr fun y lo hi => blocks y lo (by omega)]
    exact ih _ (fun y lo hi => memByte_writeBlock_congr (blocks y (by omega) (by omega)) _ _)
      (memByte_writeBlock_congr h _ _)

/-- Decryption keeps two states that agree on its blocks in agreement where they agreed. -/
theorem memByte_cbcDecryptLoop_congr (dec : Block → Block) (n : Nat) {a x : Nat} (chain : Block) {s t : State}
    (blocks : ∀ y, a ≤ y → y < a + 16 * n → memByte s y = memByte t y) (h : memByte s x = memByte t x) :
    memByte (cbcDecryptLoop dec n a chain s) x = memByte (cbcDecryptLoop dec n a chain t) x := by
  induction n generalizing a chain s t with
  | zero => exact h
  | succ n ih =>
    rw [cbcDecryptLoop, cbcDecryptLoop, readBlock_congr fun y lo hi => blocks y lo (by omega)]
    exact ih _ (fun y lo hi => memByte_writeBlock_congr (blocks y (by omega) (by omega)) _ _)
      (memByte_writeBlock_congr h _ _)

/-- The states agree on all that the command may see: operands, context, parameters, the selector of free values, and
the bytes of the regions it reads. -/
structure SameInputs (i : Instr) (s t : State) : Prop where
  args : s.args = t.args
  uctx : s.uctx = t.uctx
  memSize : s.memSize = t.memSize
  lenMode : s.lenMode = t.lenMode
  draws : s.draws = t.draws
  bytes : ∀ r ∈ readRegions i s, ∀ a, InRegion a r → memByte s a = memByte t a

section
variable {i : Instr} {s t : State} (h : SameInputs i s t)
include h

theorem SameInputs.arg_eq : arg s = arg t := by
  funext k
  rw [arg, h.args, arg]

theorem SameInputs.memRead_eq {p n : Nat} (hr : (p, n) ∈ readRegions i s) :
    memRead s p n = memRead t p n :=
  memRead_congr fun x lo hi => h.bytes _ hr x ⟨lo, hi⟩

theorem SameInputs.readBlock_eq {p : Nat} (hr : (p, 16) ∈ readRegions i s) :
    readBlock s p = readBlock t p :=
  readBlock_congr fun x lo hi => h.bytes _ hr x ⟨lo, hi⟩

theorem SameInputs.regions_eq : regions i s = regions i t := by
  cases i <;> simp only [regions, h.arg_eq]

theorem SameInputs.badContext_congr : BadContext i s ↔ BadContext i t := by
  rw [BadContext, h.uctx, BadContext]

theorem SameInputs.badParameter_congr : BadParameter i s ↔ BadParameter i t := by
  simp only [BadParameter, h.arg_eq, h.uctx]

theorem SameInputs.badRegion_congr : BadRegion i s ↔ BadRegion i t := by
  rw [BadRegion, h.regions_eq, h.memSize, BadRegion]

theorem SameInputs.ready_congr : Ready i s ↔ Ready i t := by
  cases i <;> simp only [Ready, h.arg_eq, h.uctx, h.memSize]

/-- No check reads memory (60_exceptions.md R207): the same inputs give the same result code. -/
theorem SameInputs.result_eq {s' t' : State} (hs : exec i s = .next s') (ht : exec i t = .next t') :
    s'.result = t'.result := by
  obtain ⟨context, parameter, region, success⟩ := exec_result ht
  simp only [← h.badContext_congr, ← h.badParameter_congr, ← h.badRegion_congr] at context parameter region success
  cases commandEnds_of_exec hs with
  | badContext c => exact (context c).symm
  | badParameter nc p => exact (parameter nc p).symm
  | badRegion nc np r => exact (region nc np r).symm
  | guard nc np nr _ => exact (success nc np nr).symm
  | done ready =>
    obtain ⟨nc, np, nr, -⟩ := (ready_iff i s).1 ready
    exact (success nc np nr).symm

theorem SameInputs.nextUctx_eq : nextUctx i s = nextUctx i t := by
  cases i with
  | shaInit => rfl
  | shaUpdate => rw [nextUctx, h.memRead_eq (.head _), h.arg_eq, h.uctx, nextUctx]
  | shaFinal => rw [nextUctx, h.draws, nextUctx]
  | hmac => exact h.uctx
  | cbcCipher => exact h.uctx
  | cbcDecipher => exact h.uctx
  | kdfDerive => exact h.uctx

/-- The same inputs give the same bytes in the region a command stores to. -/
theorem SameInputs.memByte_completed_eq {a : Nat} (stored : InRegion a (storedRegion i s)) :
    memByte (completed i s) a = memByte (completed i t) a := by
  rw [memByte_completed, memByte_completed]
  cases i with
  | shaInit => exact absurd stored.2 (Nat.not_lt_zero a)
  | shaUpdate => exact absurd stored.2 (Nat.not_lt_zero a)
  | shaFinal =>
    simp only [storedMem, ← h.arg_eq, ← h.lenMode, ← h.uctx]
    exact memByte_memWrite_covered stored s t
  | hmac =>
    simp only [storedMem, ← h.arg_eq, ← h.lenMode, ← h.memRead_eq (.head _), ← h.memRead_eq (.tail _ (.head _))]
    exact memByte_memWrite_covered stored s t
  | cbcCipher =>
    simp only [storedMem, ← cbcEncryptLoop_frame, ← h.arg_eq, ← h.readBlock_eq (.head _),
      ← h.readBlock_eq (.tail _ (.head _))]
    have buffer := h.bytes _ (.tail _ (.tail _ (.head _)))
    exact memByte_cbcEncryptLoop_congr _ _ _ (fun y lo hi => buffer y ⟨lo, by dsimp only; omega⟩) (buffer a stored)
  | cbcDecipher =>
    simp only [storedMem, ← cbcDecryptLoop_frame, ← h.arg_eq, ← h.readBlock_eq (.head _),
      ← h.readBlock_eq (.tail _ (.head _))]
    have buffer := h.bytes _ (.tail _ (.tail _ (.head _)))
    exact memByte_cbcDecryptLoop_congr _ _ _ (fun y lo hi => buffer y ⟨lo, by dsimp only; omega⟩) (buffer a stored)
  | kdfDerive =>
    simp only [storedMem, ← h.arg_eq, ← h.lenMode, ← h.readBlock_eq (.head _), ← h.readBlock_eq (.tail _ (.head _))]
    exact memByte_memWrite_covered stored s t

end

/-- Settles O25: the result code, the context and the stored bytes each depend on `SameInputs` alone. -/
theorem commandsSeeOnlyTheirRegions : Obligations.CommandsSeeOnlyTheirRegions := by
  intro i s1 s2 t1 t2 args uctx memSize lenMode draws bytes h1 h2
  have same : SameInputs i s1 s2 := ⟨args, uctx, memSize, lenMode, draws, bytes⟩
  refine ⟨same.result_eq h1 h2, ?_⟩
  by_cases ready : Ready i s1
  · cases exec_of_ready ready h1
    cases exec_of_ready (same.ready_congr.1 ready) h2
    exact ⟨same.nextUctx_eq, fun _ a stored => same.memByte_completed_eq stored⟩
  · obtain ⟨r1, rfl⟩ := exec_of_not_ready ready h1
    obtain ⟨r2, rfl⟩ := exec_of_not_ready (mt same.ready_congr.2 ready) h2
    exact ⟨uctx, (absurd · ready)⟩

end Sys2Proof.Machine

/-! The command word (30_encoding.md R70 to R73), the host script's assembly and its runs (R77 to R79). -/

namespace Sys2Proof

/-! ### Decoding and encoding (30_encoding.md R70 to R73) -/

@[simp] theorem decode_encode (i : Instr) : decode (encode i) = .ok i := by
  cases i <;> rfl

theorem decodeOpcode_eq_ok_iff (op : BitVec 8) (i : Instr) :
    decodeOpcode op = .ok i ↔ op.toNat = (encode i).toNat := by
  constructor
  · intro h
    unfold decodeOpcode at h
    split at h <;> cases h <;> assumption
  · intro h
    rw [decodeOpcode, h]
    cases i <;> rfl

theorem decode_eq_ok_iff (w : Word) (i : Instr) :
    decode w = .ok i ↔ reservedField w = 0 ∧ decodeOpcode (opcodeField w) = .ok i := by
  by_cases reserved : reservedField w = 0
  · rw [decode, if_pos reserved, and_iff_right reserved]
  · rw [decode, if_neg reserved]
    exact iff_of_false nofun fun h => reserved h.1

/-- With RSVD zero the word's value is that of its OPCODE. -/
theorem toNat_opcodeField_of_reservedField_eq_zero {w : Word} (h : reservedField w = 0) :
    (opcodeField w).toNat = w.toNat := by
  have high : w.toNat >>> 8 % 2 ^ 24 = 0 := congrArg BitVec.toNat h
  change w.toNat >>> 0 % 2 ^ 8 = w.toNat
  rw [Nat.shiftRight_eq_div_pow] at high ⊢
  omega

theorem decode_eq_ok_iff_eq_encode (w : Word) (i : Instr) : decode w = .ok i ↔ w = encode i := by
  constructor
  · intro h
    obtain ⟨reserved, opcode⟩ := (decode_eq_ok_iff w i).1 h
    rw [decodeOpcode_eq_ok_iff, toNat_opcodeField_of_reservedField_eq_zero reserved] at opcode
    exact BitVec.eq_of_toNat_eq opcode
  · rintro rfl
    exact decode_encode i

/-- The list of OPCODE values in the well-formedness check is the domain of the opcode map. -/
theorem exists_decodeOpcode_iff (op : BitVec 8) :
    (∃ i, decodeOpcode op = .ok i) ↔ op.toNat ∈ legalOpcodes := by
  simp only [decodeOpcode_eq_ok_iff]
  constructor
  · rintro ⟨i, h⟩
    rw [h]
    cases i <;> decide
  · intro h
    simp only [legalOpcodes, List.mem_cons, List.not_mem_nil, or_false] at h
    rcases h with h | h | h | h | h | h | h
    exacts [⟨.shaInit, h⟩, ⟨.shaUpdate, h⟩, ⟨.shaFinal, h⟩, ⟨.hmac, h⟩, ⟨.cbcCipher, h⟩, ⟨.cbcDecipher, h⟩,
      ⟨.kdfDerive, h⟩]

theorem commandWordWf_iff (w : Word) :
    commandWordWf w = true ↔ reservedField w = 0 ∧ (opcodeField w).toNat ∈ legalOpcodes := by
  simp [commandWordWf, reservedZero, opcodeLegal, reservedField, opcodeField]

/-- Settles O1: the words are the encoder's, and the refused neighbours fail one check each. -/
theorem opcodeMapWords : Obligations.OpcodeMapWords :=
  ⟨⟨decode_encode .shaInit, decode_encode .shaUpdate, decode_encode .shaFinal, decode_encode .hmac,
    decode_encode .cbcCipher, decode_encode .cbcDecipher, decode_encode .kdfDerive⟩,
    ⟨rfl, rfl, rfl, rfl⟩, decode_encode⟩

/-- Settles O3: both sides say RSVD is zero and OPCODE is in the opcode map. -/
theorem legalWordsAreTheWellFormedOnes : Obligations.LegalWordsAreTheWellFormedOnes := by
  intro w
  simp only [decode_eq_ok_iff, commandWordWf_iff, exists_and_left, exists_decodeOpcode_iff]

end Sys2Proof

namespace Sys2Proof.Machine

/-- Settles O2: decoding inverts the encoder, and a word that decodes to nothing ends with IllegalCommand. -/
theorem decodingIsWholeWordMatch : Obligations.DecodingIsWholeWordMatch := by
  refine ⟨decode_eq_ok_iff_eq_encode, fun w s noCommand => ?_⟩
  rcases hd : decode w with e | i
  · exact writeCommand_error hd s
  · exact absurd ((decode_eq_ok_iff_eq_encode w i).1 hd) (noCommand i)

/-- Settles O23: a command changed RESULT only, or stored to its region (`memByte_completed_outside`). -/
theorem memoryOutsideStoredRegionUnchanged : Obligations.MemoryOutsideStoredRegionUnchanged := by
  intro i s t h a outside
  rcases exec_cases h with ⟨r, rfl⟩ | ⟨-, rfl⟩
  · rfl
  · exact memByte_completed_outside outside

/-! ### The host's branch and goto (30_encoding.md R77) -/

theorem resultCode_eq_zero_iff (r : Result) : resultCode r = 0 ↔ r = .success := by
  cases r <;> decide

/-- The host's branch sees Success in the STATUS word exactly when RESULT is Success. -/
theorem statusResult_eq_zero_iff (s : State) : statusResult (statusWord s) = 0 ↔ s.result = .success := by
  rw [statusResult, statusWord_result_field, resultCode_eq_zero_iff]

/-- Settles O15: the branch decides on the RESULT field of STATUS. -/
theorem branchTakenExactlyOnFailure : Obligations.BranchTakenExactlyOnFailure := by
  intro s target rest hp
  rw [step_of_pending hp, hostAccess]
  simp only [statusResult_eq_zero_iff]
  exact ⟨fun success => by rw [if_pos success]; rfl, fun failed => by rw [if_neg failed]; rfl⟩

/-- Settles O57: a target at or past the end of the script drops all of it. -/
theorem gotoContinuesAtTarget : Obligations.GotoContinuesAtTarget := by
  intro s target rest hp
  have goes : step s = .next { s with pending := s.script.drop target } := step_of_pending hp
  exact ⟨goes, fun past => by rw [goes, List.drop_eq_nil_of_le past]⟩

/-! ### Assembling a command statement (30_encoding.md R78) -/

/-- The accesses of a command statement: its operands to the ARG registers, then its word to CMD. -/
def commandAccesses (i : Instr) (ops : List Word) : List Access := argWrites 0 ops ++ [commandWrite (encode i)]

@[simp] theorem argWrites_length (i : Nat) (vs : List Word) : (argWrites i vs).length = vs.length := by
  induction vs generalizing i with
  | nil => rfl
  | cons v vs ih => rw [argWrites, List.length_cons, ih, List.length_cons]

theorem argWrites_getElem? (i : Nat) (vs : List Word) (j : Nat) :
    (argWrites i vs)[j]? = vs[j]?.map fun v => .regWrite (.reg (argOffset (i + j))) 32 v := by
  induction vs generalizing i j with
  | nil => rfl
  | cons v vs ih =>
    cases j with
    | zero => rfl
    | succ j => rw [argWrites, List.getElem?_cons_succ, ih, List.getElem?_cons_succ, Nat.add_assoc, Nat.add_comm 1 j]

theorem mapM_operandValue_num (binds : List (Label × Word)) (ops : List Word) :
    (ops.map Operand.num).mapM (operandValue binds) = some ops := by
  induction ops with
  | nil => rfl
  | cons v ops ih => rw [List.map_cons, List.mapM_cons, ih]; rfl

theorem assembleStmt_command {i : Instr} {ops : List Word} (hn : ops.length = operandCount i)
    (binds : List (Label × Word)) (whole : List Stmt) :
    assembleStmt binds whole (.command i (ops.map .num)) = some (commandAccesses i ops) := by
  rw [assembleStmt, mapM_operandValue_num]
  exact if_pos hn

/-! ### Running an assembled command -/

theorem run_succ_of_step {M : Host.Core} {s t : M.State} (h : M.step s = .next t) (k : Nat) :
    M.run (k + 1) s = M.run k t := by
  rw [Host.Core.run, h]

theorem operandCount_le (i : Instr) : operandCount i ≤ 4 := by
  cases i <;> decide

/-- The ARG registers after the writes of `vs` to ARG`i` upward. -/
def argsFrom (i : Nat) (vs : List Word) (args : Vector Word 4) : Vector Word 4 :=
  Vector.ofFn fun j => if j.val < i then args[j] else vs.getD (j.val - i) args[j]

theorem argsFrom_nil (i : Nat) (args : Vector Word 4) : argsFrom i [] args = args := by
  ext j hj
  simp [argsFrom]

theorem argsFrom_set (i : Fin 4) (v : Word) (vs : List Word) (args : Vector Word 4) :
    argsFrom (i.val + 1) vs (args.set i v) = argsFrom i.val (v :: vs) args := by
  refine Vector.ext fun j hj => ?_
  simp only [argsFrom, Vector.getElem_ofFn, Fin.getElem_fin, Vector.getElem_set]
  rcases lt_trichotomy j i.val with below | rfl | above
  · simp [below, below.ne', Nat.lt_succ_of_lt below]
  · simp
  · have next : j - i.val = j - (i.val + 1) + 1 := by omega
    rw [if_neg (by omega), if_neg above.ne, if_neg above.not_gt, next, List.getD_cons_succ]

/-- The state in which a command statement's word is written: the operands are in the ARG registers. -/
def issued (ops : List Word) (rest : List Access) (s : State) : State :=
  { s with pending := rest, args := argsFrom 0 ops s.args }

theorem issued_eq (ops : List Word) (rest : List Access) (s : State) :
    issued ops rest s = { s with pending := rest, args := Vector.ofFn fun j => ops.getD j.val s.args[j] } := rfl

/-- The writes of operands take one step each and leave them in the ARG registers. -/
theorem run_argWrites {i : Nat} {vs : List Word} (fits : i + vs.length ≤ 4) (k : Nat) {rest : List Access} {s : State}
    (hp : s.pending = argWrites i vs ++ rest) :
    Host.Core.run Sys2Proof.core (vs.length + k) s =
      Host.Core.run Sys2Proof.core k { s with pending := rest, args := argsFrom i vs s.args } := by
  induction vs generalizing i s with
  | nil =>
    rw [argsFrom_nil, ← show s.pending = rest from hp, List.length_nil, Nat.zero_add]
  | cons v vs ih =>
    rw [List.length_cons] at fits
    have inArgs : i < 4 := by omega
    have write : step s = .next { s with pending := argWrites (i + 1) vs ++ rest, args := s.args.set i v } :=
      (step_regWrite hp (placeOffset_reg_of_lt s (by rw [argOffset]; omega)) (by rw [argOffset]; omega)).trans
        (writeRegister_arg ⟨i, inArgs⟩ v _)
    rw [List.length_cons, Nat.succ_add, run_succ_of_step (M := Sys2Proof.core) write, ih (by omega) rfl,
      argsFrom_set ⟨i, inArgs⟩]

/-- The write of its word to CMD runs the command. -/
theorem step_commandWrite {i : Instr} {rest : List Access} {s : State}
    (hp : s.pending = commandWrite (encode i) :: rest) : step s = exec i { s with pending := rest } :=
  (step_regWrite hp (placeOffset_reg_of_lt s (by decide)) rfl).trans (writeCommand_ok (decode_encode i) _)

/-- The accesses of a command statement run the command with its operands. -/
theorem run_commandAccesses {i : Instr} {ops : List Word} {rest : List Access} {s t : State}
    (hn : ops.length = operandCount i) (hp : s.pending = commandAccesses i ops ++ rest)
    (runs : exec i (issued ops rest s) = .next t) (k : Nat) :
    Host.Core.run Sys2Proof.core (operandCount i + 1 + k) s = Host.Core.run Sys2Proof.core k t := by
  rw [commandAccesses, List.append_assoc] at hp
  rw [← hn, Nat.add_assoc, run_argWrites (by have := operandCount_le i; omega) _ hp, Nat.add_comm 1 k]
  exact run_succ_of_step (M := Sys2Proof.core) ((step_commandWrite rfl).trans runs) k

/-- A command statement that executes normally is run by its accesses. -/
theorem run_commandAccesses_of_ready {i : Instr} {ops : List Word} {rest : List Access} {s : State}
    (hn : ops.length = operandCount i) (hp : s.pending = commandAccesses i ops ++ rest)
    (ready : Ready i (issued ops rest s)) (k : Nat) :
    Host.Core.run Sys2Proof.core (operandCount i + 1 + k) s =
      Host.Core.run Sys2Proof.core k (completed i (issued ops rest s)) := by
  obtain ⟨t, runs⟩ := exec_answers i (issued ops rest s)
  exact run_commandAccesses hn hp (exec_of_ready ready runs ▸ runs) k

/-- Settles O52: the writes, in order, and their run (`run_commandAccesses`). -/
theorem assembledCommandRuns : Obligations.AssembledCommandRuns := by
  intro i ops s rest hn
  refine ⟨commandAccesses i ops, assembleStmt_command hn [] [], ?_, fun j v hv => ?_, ?_, ?_⟩
  · rw [commandAccesses, List.length_append, argWrites_length, hn, List.length_singleton]
  · have operand : (argWrites 0 ops)[j]? = some (.regWrite (.reg (0x08 + 4 * j)) 32 v) := by
      rw [argWrites_getElem?, hv, Nat.zero_add]
      rfl
    exact List.getElem?_append_left (List.getElem?_eq_some_iff.1 operand).1 ▸ operand
  · rw [commandAccesses, List.getElem?_append_right (by simp [hn]), argWrites_length, hn, Nat.sub_self]
    rfl
  · obtain ⟨t, runs⟩ := exec_answers i (issued ops rest s)
    rw [← issued_eq, runs]
    exact run_commandAccesses (s := { s with pending := commandAccesses i ops ++ rest }) hn rfl runs 0

/-! ### The pseudo-instruction SHA256 (30_encoding.md R79) -/

theorem absorb_initContext_pendLen_lt (m : List Byte) : (absorb initContext m).pendLen.val < 64 := by
  rw [(holdsMessage_absorb m).pendLen]
  omega

theorem memRead_completed_shaFinal (s : State) :
    memRead (completed .shaFinal s) (arg s 0) 32 = finalizeDigest s.lenMode s.uctx.ctx := by
  have stored : memRead (completed .shaFinal s) (arg s 0) 32 =
      memRead (memWrite (arg s 0) (finalizeDigest s.lenMode s.uctx.ctx) s) (arg s 0) 32 := memRead_eq_of rfl rfl _ _
  exact stored.trans (memRead_memWrite_same (arg s 0) _ s)

/-- The accesses of the three commands that SHA256 stands for. -/
def sha256Accesses (data len digest : Word) : List Access :=
  commandAccesses .shaInit [] ++ (commandAccesses .shaUpdate [data, len] ++ (commandAccesses .shaFinal [digest] ++ []))

theorem assemble_sha256 (binds : List (Label × Word)) (data len digest : Word) :
    assemble binds [.sha256 (.num data) (.num len) (.num digest)] = some (sha256Accesses data len digest) := rfl

/-- The state in which SHA256 writes the word of SHA_INIT. -/
def sha256InitIssued (data len digest : Word) (s : State) : State :=
  issued [] (commandAccesses .shaUpdate [data, len] ++ (commandAccesses .shaFinal [digest] ++ [])) s

/-- The state in which SHA256 writes the word of SHA_UPDATE. -/
def sha256UpdateIssued (data len digest : Word) (s : State) : State :=
  issued [data, len] (commandAccesses .shaFinal [digest] ++ []) (completed .shaInit (sha256InitIssued data len digest s))

/-- The state in which SHA256 writes the word of SHA_FINAL. -/
def sha256FinalIssued (data len digest : Word) (s : State) : State :=
  issued [digest] [] (completed .shaUpdate (sha256UpdateIssued data len digest s))

section
variable {data len digest : Word} {s : State}

theorem arg_sha256FinalIssued : arg (sha256FinalIssued data len digest s) 0 = digest.toNat := rfl

theorem lenMode_sha256FinalIssued : (sha256FinalIssued data len digest s).lenMode = s.lenMode := rfl

/-- The writes to the ARG registers leave `M`, so SHA_UPDATE absorbs the bytes as they stood at the start. -/
theorem ctx_sha256FinalIssued :
    (sha256FinalIssued data len digest s).uctx.ctx = absorb initContext (memRead s data.toNat len.toNat) := by
  have message : memRead (sha256UpdateIssued data len digest s) data.toNat len.toNat =
      memRead s data.toNat len.toNat := memRead_eq_of rfl rfl _ _
  rw [← message]
  rfl

/-- SHA_UPDATE starts from the empty message, so no length passes the limit of 40_sha256.md R108. -/
theorem ready_sha256UpdateIssued (pointer : len = 0 ∨ data ≠ 0)
    (valid : RegionValid s.memSize data.toNat len.toNat) :
    Ready .shaUpdate (sha256UpdateIssued data len digest s) := by
  have operands : len.toNat = 0 ∨ data.toNat ≠ 0 := by bv_omega
  have limit : 0 + len.toNat ≤ 2 ^ 61 - 1 := by omega
  exact ⟨rfl, operands, limit, valid, Nat.zero_lt_succ _⟩

theorem ready_sha256FinalIssued (pointer : digest ≠ 0) (valid : RegionValid s.memSize digest.toNat 32) :
    Ready .shaFinal (sha256FinalIssued data len digest s) := by
  have operand : digest.toNat ≠ 0 := by bv_omega
  exact ⟨rfl, operand, valid, absorb_initContext_pendLen_lt _⟩

/-- The three commands run one after the other, when they are Ready. -/
theorem run_sha256Accesses (hp : s.pending = sha256Accesses data len digest)
    (update : Ready .shaUpdate (sha256UpdateIssued data len digest s))
    (final : Ready .shaFinal (sha256FinalIssued data len digest s)) :
    Host.Core.run Sys2Proof.core 6 s = .next (completed .shaFinal (sha256FinalIssued data len digest s)) :=
  calc Host.Core.run Sys2Proof.core 6 s
    _ = Host.Core.run Sys2Proof.core 5 (completed .shaInit (sha256InitIssued data len digest s)) :=
      run_commandAccesses_of_ready (i := .shaInit) rfl hp trivial 5
    _ = Host.Core.run Sys2Proof.core 2 (completed .shaUpdate (sha256UpdateIssued data len digest s)) :=
      run_commandAccesses_of_ready (i := .shaUpdate) rfl rfl update 2
    _ = .next (completed .shaFinal (sha256FinalIssued data len digest s)) :=
      run_commandAccesses_of_ready (i := .shaFinal) rfl rfl final 0

theorem memRead_sha256_digest :
    memRead (completed .shaFinal (sha256FinalIssued data len digest s)) digest.toNat 32 =
      sha256 s.lenMode (memRead s data.toNat len.toNat) := by
  rw [← arg_sha256FinalIssued, memRead_completed_shaFinal, lenMode_sha256FinalIssued, ctx_sha256FinalIssued, sha256]

end

/-- Settles O53: SHA_INIT, SHA_UPDATE and SHA_FINAL are Ready in turn, and finalize the context of the whole message. -/
theorem sha256PseudoInstruction : Obligations.Sha256PseudoInstruction := by
  intro s data len digest dataPointer digestPointer dataValid digestValid
  exact ⟨_, _, assemble_sha256 [] data len digest, rfl,
    run_sha256Accesses rfl (ready_sha256UpdateIssued dataPointer dataValid)
      (ready_sha256FinalIssued digestPointer digestValid),
    rfl, rfl, rfl, memRead_sha256_digest⟩

/-! ### Labels (30_encoding.md R77) -/

/-- A command, memory or raw statement: one whose accesses do not depend on the statements around it. -/
def Stmt.IsPlain (x : Stmt) : Prop :=
  (∃ i ops, x = .command i ops) ∨ (∃ a v, x = .mem a v) ∨ (∃ i v, x = .setArg i v) ∨ (∃ w, x = .setCmd w)

theorem Stmt.IsPlain.expandStmt_eq {x : Stmt} (h : x.IsPlain) : expandStmt x = [x] := by
  rcases h with ⟨i, ops, rfl⟩ | ⟨a, v, rfl⟩ | ⟨i, v, rfl⟩ | ⟨w, rfl⟩ <;> rfl

theorem Stmt.IsPlain.ne_label {x : Stmt} (h : x.IsPlain) (l : Label) : x ≠ .label l := by
  rcases h with ⟨i, ops, rfl⟩ | ⟨a, v, rfl⟩ | ⟨i, v, rfl⟩ | ⟨w, rfl⟩ <;> nofun

theorem flatMap_expandStmt_of_plain {before : List Stmt} (plain : ∀ x ∈ before, x.IsPlain) :
    before.flatMap expandStmt = before := by
  rw [List.flatMap_congr fun x hx => (plain x hx).expandStmt_eq, List.flatMap_singleton']

/-- A statement assembles to as many accesses as its size says. -/
theorem assembleStmt_length {binds : List (Label × Word)} {whole : List Stmt} {x : Stmt} {p : List Access}
    (h : assembleStmt binds whole x = some p) : p.length = stmtSize x := by
  cases x with
  | command i ops =>
    simp only [assembleStmt, Option.bind_eq_bind, Option.bind_eq_some_iff, Option.ite_none_right_eq_some,
      Option.some.injEq] at h
    obtain ⟨vs, -, hn, rfl⟩ := h
    simp [stmtSize, hn]
  | ifFailed l =>
    simp only [assembleStmt, Option.bind_eq_bind, Option.bind_eq_some_iff, Option.some.injEq] at h
    obtain ⟨t, -, rfl⟩ := h
    rfl
  | goto l =>
    simp only [assembleStmt, Option.bind_eq_bind, Option.bind_eq_some_iff, Option.some.injEq] at h
    obtain ⟨t, -, rfl⟩ := h
    rfl
  | sha256 data len digest => cases h
  | _ => cases h; rfl

/-- A label names the place after the accesses of the statements before it. -/
theorem labelTarget_after {l : Label} {before : List Stmt} (later : List Stmt) (fresh : ∀ x ∈ before, x ≠ .label l)
    (n : Nat) :
    labelTarget l n (before ++ .label l :: later) = some (n + (before.map stmtSize).sum) := by
  induction before generalizing n with
  | nil => simp [labelTarget]
  | cons x before ih =>
    obtain ⟨here, rest⟩ := List.forall_mem_cons.1 fresh
    rw [List.cons_append, labelTarget, if_neg here, ih rest, List.map_cons, List.sum_cons, Nat.add_assoc]

theorem mapM_assembleStmt_length {binds : List (Label × Word)} {whole xs : List Stmt} {parts : List (List Access)}
    (h : xs.mapM (assembleStmt binds whole) = some parts) : parts.flatten.length = (xs.map stmtSize).sum := by
  induction xs generalizing parts with
  | nil => cases h; rfl
  | cons x xs ih =>
    simp only [List.mapM_cons, Option.bind_eq_bind, Option.bind_eq_some_iff, Option.pure_def, Option.some.injEq] at h
    obtain ⟨p, hx, ps, hxs, rfl⟩ := h
    rw [List.flatten_cons, List.length_append, assembleStmt_length hx, ih hxs, List.map_cons, List.sum_cons]

theorem assemble_length {binds : List (Label × Word)} {script : List Stmt} {p : List Access}
    (h : assemble binds script = some p) : p.length = ((script.flatMap expandStmt).map stmtSize).sum := by
  simp only [assemble, Option.bind_eq_bind, Option.bind_eq_some_iff, Option.some.injEq] at h
  obtain ⟨parts, hparts, rfl⟩ := h
  exact mapM_assembleStmt_length hparts

/-- Settles O58: the statements before the label have the sizes of their accesses. -/
theorem labelNamesNextStatement : Obligations.LabelNamesNextStatement := by
  intro l before later p plain hp
  have target : labelTarget l 0 (before ++ .label l :: later) = some p.length := by
    rw [labelTarget_after later fun x hx => Stmt.IsPlain.ne_label (plain x hx) l, Nat.zero_add, assemble_length hp,
      flatMap_expandStmt_of_plain plain]
  constructor <;> rw [assembleStmt, target] <;> rfl

end Sys2Proof.Machine

/-! SHA-256 and its streaming commands (40_sha256.md R103 to R113). -/

namespace Sys2Proof.Machine

/-! ### How a command ends, for given checks (60_exceptions.md R207) -/

theorem exec_eq_completed {i : Instr} {s : State} (ready : Ready i s) : exec i s = .next (completed i s) := by
  obtain ⟨t, h⟩ := exec_answers i s
  exact exec_of_ready ready h ▸ h

/-- All that a completed command may have changed. -/
theorem completed_frame (i : Instr) (s : State) :
    completed i s = { s with
      result := .success
      uctx := (completed i s).uctx
      mem := (completed i s).mem
      draws := (completed i s).draws } := rfl

/-- A command that is not Ready has no effect but its result code. -/
theorem exec_eq_of_result {i : Instr} {s t : State} {r : Result} (notReady : ¬ Ready i s) (h : exec i s = .next t)
    (hr : t.result = r) : exec i s = .next { s with result := r } := by
  obtain ⟨r', rfl⟩ := exec_of_not_ready notReady h
  cases hr
  exact h

theorem exec_of_badContext {i : Instr} {s : State} (bad : BadContext i s) :
    exec i s = .next { s with result := .invalidContext } := by
  obtain ⟨t, h⟩ := exec_answers i s
  obtain ⟨context, -⟩ := exec_result h
  exact exec_eq_of_result (mt (ready_iff i s).1 fun ⟨noContext, _⟩ => noContext bad) h (context bad)

theorem exec_of_badParameter {i : Instr} {s : State} (context : ¬ BadContext i s) (bad : BadParameter i s) :
    exec i s = .next { s with result := .invalidParameter } := by
  obtain ⟨t, h⟩ := exec_answers i s
  obtain ⟨-, parameter, -⟩ := exec_result h
  exact exec_eq_of_result (mt (ready_iff i s).1 fun ⟨_, noParameter, _⟩ => noParameter bad) h (parameter context bad)

theorem exec_of_takesGuard {i : Instr} {s : State} (context : ¬ BadContext i s) (parameter : ¬ BadParameter i s)
    (region : ¬ BadRegion i s) (guard : TakesGuard i s) : exec i s = .next { s with result := .success } := by
  obtain ⟨t, h⟩ := exec_answers i s
  obtain ⟨-, -, -, success⟩ := exec_result h
  exact exec_eq_of_result (mt (ready_iff i s).1 fun ⟨_, _, _, noGuard⟩ => noGuard guard) h
    (success context parameter region)

theorem not_badContext_of_active {i : Instr} {s : State} (active : s.uctx.phase = .active) : ¬ BadContext i s :=
  fun bad => bad.2 active

/-! ### The streaming commands on the user context (40_sha256.md R104 to R111) -/

/-- Settles O26: SHA_INIT is Ready in every state. -/
theorem shaInitStartsMessage : Obligations.ShaInitStartsMessage :=
  ⟨decode_encode .shaInit, fun _ => exec_eq_completed (i := .shaInit) trivial⟩

/-- Within the limit of 40_sha256.md R108 the addition of the length to COUNT does not wrap. -/
theorem absorb_count_toNat {c : HashContext} {m : List Byte} (limit : c.count.toNat + m.length ≤ 2 ^ 61 - 1) :
    (absorb c m).count.toNat = c.count.toNat + m.length := by
  show (c.count + BitVec.ofNat 64 m.length).toNat = _
  rw [BitVec.toNat_add, BitVec.toNat_ofNat]
  omega

/-- Absorbing an empty region is no change of the context. -/
theorem completed_shaUpdate_of_len_zero {s : State} (empty : arg s 1 = 0) :
    completed .shaUpdate s = { s with result := .success } := by
  have same : nextUctx .shaUpdate s = s.uctx := by
    rw [nextUctx, empty]
    exact congrArg (UserContext.mk s.uctx.phase) (absorb_nil_words s.uctx.ctx)
  rw [completed, same]
  rfl

/-- Settles O27: SHA_UPDATE completes, and its limit check keeps COUNT from wrapping. -/
theorem shaUpdateAbsorbsRegion : Obligations.ShaUpdateAbsorbsRegion := by
  intro s ready
  have runs := exec_eq_completed ready
  obtain ⟨active, -, limit, -, -⟩ := ready
  refine ⟨⟨completed .shaUpdate s, runs, rfl, active, rfl, ?_⟩, fun empty => ?_⟩
  · rw [← memRead_length s (arg s 0) (arg s 1)] at limit
    exact (absorb_count_toNat limit).trans (by rw [memRead_length])
  · rw [runs, completed_shaUpdate_of_len_zero empty]

/-- Settles O30: SHA_FINAL completes; its only store is the digest at its operand. -/
theorem shaFinalWritesDigest : Obligations.ShaFinalWritesDigest := by
  intro s ready
  exact ⟨completed .shaFinal s, exec_eq_completed ready, completed_frame .shaFinal s, rfl,
    memRead_completed_shaFinal s, fun _ outside => memByte_completed_outside outside⟩

theorem bitLength_full64_toNat {n : BitVec 64} (h : n.toNat ≤ 2 ^ 61 - 1) :
    (bitLength .full64 n).toNat = 8 * n.toNat := by
  rw [bitLength, BitVec.toNat_ofNat]
  omega

/-- Settles O29: passing the limit is a bad parameter, and 8 times a count within it is below 2^64. -/
theorem messageLengthLimit : Obligations.MessageLengthLimit := by
  refine ⟨fun s active long => ?_, fun n => bitLength_full64_toNat⟩
  exact exec_of_badParameter (not_badContext_of_active active) (.inr long)

/-- Settles O31: no check before the guard applies. -/
theorem corruptedPendingLengthIsGuarded : Obligations.CorruptedPendingLengthIsGuarded := by
  refine fun s active corrupted => ⟨fun pointer limit valid => ?_, fun pointer valid => ?_⟩
  · have parameter : ¬ BadParameter .shaUpdate s := by
      rw [BadParameter]
      omega
    exact exec_of_takesGuard (not_badContext_of_active active) parameter
      (mt (badRegion_iff_of_one rfl).1 (not_not.2 valid)) ⟨.inl rfl, corrupted⟩
  · exact exec_of_takesGuard (not_badContext_of_active active) pointer
      (mt (badRegion_iff_of_one rfl).1 (not_not.2 valid)) ⟨.inr rfl, corrupted⟩

/-- The other commands have no effect on the user context (10_state.md R35, 40_sha256.md R104). -/
theorem nextUctx_of_not_sha {i : Instr} (init : i ≠ .shaInit) (update : i ≠ .shaUpdate) (final : i ≠ .shaFinal)
    (s : State) : nextUctx i s = s.uctx := by
  cases i with
  | shaInit => exact absurd rfl init
  | shaUpdate => exact absurd rfl update
  | shaFinal => exact absurd rfl final
  | hmac => rfl
  | cbcCipher => rfl
  | cbcDecipher => rfl
  | kdfDerive => rfl

/-- The user context changes only when a command completes. -/
theorem exec_uctx {i : Instr} {s t : State} (h : exec i s = .next t) : t.uctx = s.uctx ∨ t.uctx = nextUctx i s := by
  rcases exec_cases h with ⟨r, rfl⟩ | ⟨-, rfl⟩
  · exact .inl rfl
  · exact .inr rfl

/-- SHA_UPDATE keeps the context's state (40_sha256.md R104). -/
theorem exec_keeps_phase {i : Instr} {s t : State} (init : i ≠ .shaInit) (final : i ≠ .shaFinal)
    (h : exec i s = .next t) : t.uctx.phase = s.uctx.phase := by
  rcases exec_uctx h with same | next
  · rw [same]
  · rw [next]
    by_cases update : i = .shaUpdate
    · rw [update]
      rfl
    · rw [nextUctx_of_not_sha init update final]

/-- Settles O32, row by row of the lifecycle table. -/
theorem contextLifecycle : Obligations.ContextLifecycle := by
  intro i s t h
  have refused (bad : BadContext i s) : t = { s with result := .invalidContext } :=
    Host.Outcome.next.inj (h.symm.trans (exec_of_badContext bad))
  refine ⟨?_, fun update inactive => refused ⟨.inl update, inactive⟩, ?_,
    fun final inactive => refused ⟨.inr final, inactive⟩, ?_, fun init update final => ?_⟩
  · rintro rfl
    cases exec_of_ready trivial h
    exact ⟨rfl, rfl⟩
  · rintro rfl active
    exact (exec_keeps_phase (i := .shaUpdate) nofun nofun h).trans active
  · rintro rfl -
    refine ⟨fun ready => ?_, fun notReady => ?_⟩
    · cases exec_of_ready ready h
      rfl
    · obtain ⟨r, rfl⟩ := exec_of_not_ready notReady h
      rfl
  · exact (exec_uctx h).elim id (·.trans (nextUctx_of_not_sha init update final s))

/-- A command word that changes the context's state is that of SHA_INIT or of SHA_FINAL. -/
theorem decode_of_phase_changed {w : Word} {s t : State} (h : writeCommand w s = .next t)
    (changed : t.uctx.phase ≠ s.uctx.phase) : decode w = .ok .shaInit ∨ decode w = .ok .shaFinal := by
  rcases hd : decode w with e | i
  · cases (writeCommand_error hd s).symm.trans h
    exact absurd rfl changed
  · by_contra other
    obtain ⟨init, final⟩ := not_or.1 other
    exact changed (exec_keeps_phase (fun hi => init (hi ▸ rfl)) (fun hi => final (hi ▸ rfl))
      ((writeCommand_ok hd s).symm.trans h))

/-- Settles O33, along the five things a step can do: three of them leave the user context. -/
theorem phaseChangedOnlyByShaCommandsOrReset : Obligations.PhaseChangedOnlyByShaCommandsOrReset := by
  intro s t h changed
  rcases step_cases h with ⟨-, rfl⟩ | ⟨rest, place, w, hp, ho, hw⟩ | ⟨rest, hp, -⟩ | ⟨rest, a, v, -, rfl⟩ | ht
  · exact absurd rfl changed
  · exact ⟨_, rest, hp, .inr ⟨place, w, rfl, ho, decode_of_phase_changed hw changed⟩⟩
  · exact ⟨_, rest, hp, .inl rfl⟩
  · exact absurd rfl changed
  · exact absurd (congrArg (·.uctx.phase) ht) changed

/-! ### Absorbing (40_sha256.md R107, R113) -/

/-- Settles O35. -/
theorem absorbSplitsAnywhere : Obligations.AbsorbSplitsAnywhere := absorb_append

theorem absorb_singleton (c : HashContext) (b : Byte) :
    absorb c [b] = { absorbByte c b with count := c.count + 1 } := rfl

theorem absorbByte_of_room {c : HashContext} (room : c.pendLen.val < 63) (b : Byte) :
    absorbByte c b = { c with blk := c.blk.setIfInBounds c.pendLen.val b, pendLen := c.pendLen + 1 } := by
  have next : (c.pendLen + 1).val = c.pendLen.val + 1 := Fin.val_add_one_of_lt' (by omega)
  have notFull : c.pendLen + 1 ≠ 64 := fun full => by
    have := next.symm.trans (congrArg Fin.val full)
    change _ = 64 at this
    omega
  rw [absorbByte, if_neg notFull]

theorem absorbByte_of_last {c : HashContext} (last : c.pendLen.val = 63) (b : Byte) :
    absorbByte c b =
      { c with
        words := compress c.words (c.blk.setIfInBounds c.pendLen.val b)
        blk := c.blk.setIfInBounds c.pendLen.val b
        pendLen := 0 } := by
  have full : c.pendLen + 1 = 64 := by
    rw [show c.pendLen = 63 from Fin.ext last]
    rfl
  rw [absorbByte, if_pos full]

/-- Settles O28: one lemma for each branch of `absorbByte`. -/
theorem absorbingOneByte : Obligations.AbsorbingOneByte := by
  refine fun c b _ => ⟨fun room => ?_, fun last => ?_, rfl⟩
  · rw [absorb_singleton, absorbByte_of_room room]
    exact ⟨Fin.val_add_one_of_lt' (by omega), rfl, rfl⟩
  · rw [absorb_singleton, absorbByte_of_last last]
    exact ⟨rfl, rfl⟩

/-! ### Streaming (40_sha256.md R113) -/

/-- A context that is in the middle of the message `m` (10_state.md R32). -/
def midMessage (m : List Byte) : UserContext := { phase := .active, ctx := absorb initContext m }

/-- In the middle of a message no command takes the guard, so one that ends with Success has completed. -/
theorem eq_completed_of_success {i : Instr} {s t : State} {m : List Byte} (hu : s.uctx = midMessage m)
    (h : exec i s = .next t) (ok : t.result = .success) : t = completed i s := by
  cases commandEnds_of_exec h with
  | badContext => cases ok
  | badParameter => cases ok
  | badRegion => cases ok
  | guard _ _ _ taken =>
    obtain ⟨-, corrupted⟩ := taken
    rw [hu] at corrupted
    exact absurd corrupted (not_le.2 (absorb_initContext_pendLen_lt m))
  | done => rfl

/-- Successful updates append to the message. -/
theorem Absorbs.midMessage_append {u v : UserContext} {m0 m : List Byte} (h : Absorbs u m v) (hu : u = midMessage m0) :
    v = midMessage (m0 ++ m) := by
  induction h with
  | none => rw [List.append_nil, hu]
  | update _ same runs ok ih =>
    have mid := same.trans ih
    obtain rfl := eq_completed_of_success mid runs ok
    rw [← List.append_assoc, midMessage, absorb_append]
    show nextUctx .shaUpdate _ = _
    rw [nextUctx, mid, midMessage]

/-- Settles O40: from SHA_INIT on the context is in the middle of the message absorbed so far. -/
theorem streamingEqualsOneShot : Obligations.StreamingEqualsOneShot := by
  intro s0 t0 s t m u init updates hs final ok
  cases exec_of_ready (i := .shaInit) trivial init
  have mid : s.uctx = midMessage m :=
    hs.trans (updates.midMessage_append (m0 := []) (congrArg _ (absorb_nil_words initContext).symm))
  obtain rfl := eq_completed_of_success mid final ok
  refine ⟨?_, rfl⟩
  rw [memRead_completed_shaFinal, mid, midMessage, sha256]

/-! ### The digest (40_sha256.md R110, R112) -/

theorem wordOfBytes_be32 (w : Word) :
    wordOfBytes (w.extractLsb' 24 8) (w.extractLsb' 16 8) (w.extractLsb' 8 8) (w.extractLsb' 0 8) = w := by
  have join3 : w.extractLsb' 24 8 ++ w.extractLsb' 16 8 = w.extractLsb' 16 16 :=
    BitVec.extractLsb'_append_extractLsb'_eq_extractLsb' rfl
  have join2 : w.extractLsb' 16 16 ++ w.extractLsb' 8 8 = w.extractLsb' 8 24 :=
    BitVec.extractLsb'_append_extractLsb'_eq_extractLsb' rfl
  have join1 : w.extractLsb' 8 24 ++ w.extractLsb' 0 8 = w.extractLsb' 0 32 :=
    BitVec.extractLsb'_append_extractLsb'_eq_extractLsb' rfl
  rw [wordOfBytes, join3, join2, join1, BitVec.extractLsb'_eq_self]

theorem wordsOfBytes_be32_append (w : Word) (l : List Byte) : wordsOfBytes (be32 w ++ l) = w :: wordsOfBytes l :=
  congrArg (· :: wordsOfBytes l) (wordOfBytes_be32 w)

/-- Settles O39: reading a word back from its four bytes gives the word, eight times. -/
theorem digestBytesBigEndian : Obligations.DigestBytesBigEndian := by
  refine ⟨fun mode m => finalizeDigest_length mode _, fun h => ⟨rfl, ?_⟩⟩
  have last : wordsOfBytes (be32 h.h) = [h.h] := wordsOfBytes_be32_append h.h []
  simp only [digestBytes, List.append_assoc, wordsOfBytes_be32_append, last]

/-- A bit count below 2^32 fits the length field of either mode. -/
theorem bitLength_legacy32_eq_full64 {n : BitVec 64} (h : n.toNat < 2 ^ 29) :
    bitLength .legacy32 n = bitLength .full64 n := by
  rw [bitLength, bitLength, Nat.mod_eq_of_lt (by omega), Nat.mod_eq_of_lt (by omega)]

/-- Settles O38: the mode enters the digest through the length field only. -/
theorem lengthModesAgreeBelow512MiB : Obligations.LengthModesAgreeBelow512MiB := by
  intro c h
  rw [finalizeDigest, bitLength_legacy32_eq_full64 h, finalizeDigest]

/-! ### The message schedule (40_sha256.md R103) -/

/-- A byte string without a first word has at most three bytes. -/
theorem length_lt_four_of_no_word {l : List Byte}
    (short : ∀ (b0 b1 b2 b3 : Byte) (rest : List Byte), l = b0 :: b1 :: b2 :: b3 :: rest → False) : l.length < 4 := by
  rcases l with _ | ⟨b0, _ | ⟨b1, _ | ⟨b2, _ | ⟨b3, rest⟩⟩⟩⟩
  iterate 4 simp
  exact (short b0 b1 b2 b3 rest rfl).elim

theorem wordsOfBytes_length (l : List Byte) : (wordsOfBytes l).length = l.length / 4 := by
  induction l using wordsOfBytes.induct with
  | case1 b0 b1 b2 b3 rest ih =>
    simp only [wordsOfBytes, List.length_cons, ih]
    omega
  | case2 l short =>
    have := length_lt_four_of_no_word short
    rw [wordsOfBytes.eq_2 l short, List.length_nil]
    omega

/-- Word `t` of a byte string is made of bytes `4t` to `4t + 3`. -/
theorem wordsOfBytes_getD {l : List Byte} {t : Nat} (h : 4 * t + 3 < l.length) :
    (wordsOfBytes l).getD t 0 =
      wordOfBytes (l.getD (4 * t) 0) (l.getD (4 * t + 1) 0) (l.getD (4 * t + 2) 0) (l.getD (4 * t + 3) 0) := by
  induction l using wordsOfBytes.induct generalizing t with
  | case1 b0 b1 b2 b3 rest ih =>
    cases t with
    | zero => rfl
    | succ t => exact ih (t := t) (by simp only [List.length_cons] at h; omega)
  | case2 l short =>
    have := length_lt_four_of_no_word short
    omega

/-- The word added last comes after the `n` words before it. -/
theorem extendSchedule_succ (n : Nat) (ws : List Word) :
    extendSchedule (n + 1) ws = nextScheduleWord (extendSchedule n ws) :: extendSchedule n ws := by
  induction n generalizing ws with
  | zero => rfl
  | succ n ih => rw [extendSchedule, ih, extendSchedule]

theorem extendSchedule_length (n : Nat) (ws : List Word) : (extendSchedule n ws).length = n + ws.length := by
  induction n with
  | zero => rw [extendSchedule, Nat.zero_add]
  | succ n ih => rw [extendSchedule_succ, List.length_cons, ih, Nat.succ_add]

/-- `k` more words move those computed so far `k` places back. -/
theorem extendSchedule_add_getD (n k j : Nat) (ws : List Word) :
    (extendSchedule (n + k) ws).getD (k + j) 0 = (extendSchedule n ws).getD j 0 := by
  induction k with
  | zero => rw [Nat.add_zero, Nat.zero_add]
  | succ k ih => rw [← Nat.add_assoc, extendSchedule_succ, Nat.succ_add, List.getD_cons_succ, ih]

/-- The first `n + 16` schedule words of a block, the latest first. -/
def scheduleStage (blk : Vector Byte 64) (n : Nat) : List Word := extendSchedule n (wordsOfBytes blk.toList).reverse

theorem wordsOfBlock_length (blk : Vector Byte 64) : (wordsOfBytes blk.toList).length = 16 := by
  rw [wordsOfBytes_length, Vector.length_toList]

theorem messageSchedule_length (blk : Vector Byte 64) : (messageSchedule blk).length = 64 := by
  rw [messageSchedule, List.length_reverse, extendSchedule_length, List.length_reverse, wordsOfBlock_length]

/-- Every stage that has word `t` has it at the same distance from its first word. -/
theorem messageSchedule_getD (blk : Vector Byte 64) {n t : Nat} (hn : n ≤ 48) (ht : t ≤ n + 15) :
    (messageSchedule blk).getD t 0 = (scheduleStage blk n).getD (n + 15 - t) 0 := by
  have length : (scheduleStage blk 48).length = 64 := by
    rw [scheduleStage, extendSchedule_length, List.length_reverse, wordsOfBlock_length]
  have place : 64 - 1 - t = 48 - n + (n + 15 - t) := by omega
  have stage : scheduleStage blk 48 = extendSchedule (n + (48 - n)) (wordsOfBytes blk.toList).reverse := by
    rw [scheduleStage, Nat.add_sub_cancel' hn]
  show (scheduleStage blk 48).reverse.getD t 0 = _
  rw [List.getD_reverse t (by omega), length, place, stage, extendSchedule_add_getD, scheduleStage]

theorem messageSchedule_getD_block (blk : Vector Byte 64) {t : Nat} (h : t < 16) :
    (messageSchedule blk).getD t 0 = (wordsOfBytes blk.toList).getD t 0 := by
  have words := wordsOfBlock_length blk
  rw [messageSchedule_getD blk (Nat.zero_le 48) (by omega), scheduleStage, extendSchedule,
    List.getD_reverse _ (by omega), words, show 16 - 1 - (0 + 15 - t) = t by omega]

/-- A word from 16 on is the word added to the stage before. -/
theorem messageSchedule_getD_next (blk : Vector Byte 64) {n : Nat} (h : n < 48) :
    (messageSchedule blk).getD (n + 16) 0 = nextScheduleWord (scheduleStage blk n) := by
  rw [messageSchedule_getD blk h (by omega), scheduleStage, extendSchedule_succ, Nat.sub_self, List.getD_cons_zero,
    scheduleStage]

/-- Settles O34: below 16 the words of the block, from 16 on the word added to the stage before. -/
theorem messageScheduleRecurrence : Obligations.MessageScheduleRecurrence := by
  refine fun blk => ⟨messageSchedule_length blk, fun t h => ?_, fun t lo hi => ?_⟩
  · have byte (i : Nat) (hi : i < 64) : blk.toList.getD i 0 = blk[i] := by simp [hi]
    refine (messageSchedule_getD_block blk h).trans ?_
    rw [wordsOfBytes_getD (by rw [Vector.length_toList]; omega), byte _ (by omega), byte _ (by omega),
      byte _ (by omega), byte _ (by omega)]
  · obtain ⟨n, rfl⟩ := Nat.exists_eq_add_of_le' lo
    have back (j k : Nat) (hj : j + k = n + 15) :
        (messageSchedule blk).getD j 0 = (scheduleStage blk n).getD k 0 := by
      rw [messageSchedule_getD blk (n := n) (by omega) (by omega), ← hj, Nat.add_sub_cancel_left]
    refine (messageSchedule_getD_next blk (by omega)).trans ?_
    dsimp only
    rw [back _ 1 (by omega), back _ 6 (by omega), back _ 14 (by omega), back _ 15 (by omega), nextScheduleWord]

/-! ### The standard padding (40_sha256.md R105, R110) -/

/-- Bytes that fill up the pending block compress it. -/
theorem chainingValue_append {m l : List Byte} (fills : m.length % 64 + l.length = 64) :
    chainingValue (m ++ l) = compress (chainingValue m) (fullBlock (m ++ l) (m.length / 64)) := by
  have blocks : (m ++ l).length / 64 = m.length / 64 + 1 := by
    rw [List.length_append]
    omega
  rw [chainingValue, blocks, List.range_succ, List.foldl_append, foldl_compress_fullBlock_append le_rfl]
  rfl

/-- After the pending bytes of `m` the block goes on with what is appended. -/
theorem fullBlock_append_tail (m l : List Byte) {i : Nat} (hi : i < 64) (h : m.length % 64 ≤ i) :
    (fullBlock (m ++ l) (m.length / 64))[i] = l.getD (i - m.length % 64) 0 := by
  rw [fullBlock, Vector.getElem_ofFn, List.getD_append_right _ _ _ _ (by dsimp only; omega)]
  congr 1
  dsimp only
  omega

/-- Up to there it holds the pending bytes. -/
theorem HoldsMessage.fullBlock_append_head {m : List Byte} {c : HashContext} (hc : HoldsMessage m c) (l : List Byte)
    {i : Nat} (hi : i < 64) (h : i < m.length % 64) : (fullBlock (m ++ l) (m.length / 64))[i] = c.blk[i] := by
  rw [fullBlock, Vector.getElem_ofFn, List.getD_append _ _ _ _ (by dsimp only; omega), hc.pending i hi h]

/-- The first bytes of the padding: 0x80 and `k` zeros. -/
def markedZeros (k : Nat) : List Byte := 0x80 :: List.replicate k 0

@[simp] theorem markedZeros_length (k : Nat) : (markedZeros k).length = k + 1 := by simp [markedZeros]

/-- Storing 0x80 and zeroing up to `hi` puts `markedZeros` after the `n` pending bytes. -/
theorem zeroRange_marked_getElem (blk : Vector Byte 64) {n hi i : Nat} (h : i < 64) (below : i < hi) :
    (zeroRange (n + 1) hi (blk.setIfInBounds n 0x80))[i] =
      if i < n then blk[i] else (markedZeros (hi - (n + 1))).getD (i - n) 0 := by
  rw [zeroRange, Vector.getElem_ofFn]
  rcases lt_trichotomy i n with pending | rfl | zero
  · rw [if_neg (by dsimp only; omega), if_pos pending]
    exact Vector.getElem_setIfInBounds_ne h pending.ne'
  · rw [if_neg (by dsimp only; omega), if_neg (lt_irrefl i), Nat.sub_self]
    exact Vector.getElem_setIfInBounds_self h
  · obtain ⟨k, rfl⟩ := Nat.exists_eq_add_of_lt zero
    rw [if_pos ⟨by dsimp only; omega, below⟩, if_neg zero.not_gt, Nat.add_assoc, Nat.add_sub_cancel_left, markedZeros,
      List.getD_cons_succ, List.getD_replicate _ (by omega)]

theorem putLength_getElem_low (l : BitVec 64) (blk : Vector Byte 64) {i : Nat} (h : i < 56) :
    (putLength l blk)[i] = blk[i] := by
  rw [putLength, Vector.getElem_ofFn, if_neg (not_le.2 h)]
  rfl

theorem putLength_getElem_high (l : BitVec 64) (blk : Vector Byte 64) {i : Nat} (hi : i < 64) (h : 56 ≤ i) :
    (putLength l blk)[i] = (be64 l).getD (i - 56) 0 := by
  rw [putLength, Vector.getElem_ofFn, if_pos h]

/-- With at most 55 bytes pending the length still fits the block. -/
theorem padBlock_of_short {c : HashContext} (short : c.pendLen.val ≤ 55) :
    padBlock c = (c.words, zeroRange (c.pendLen.val + 1) 56 (c.blk.setIfInBounds c.pendLen.val 0x80)) :=
  if_pos short

/-- With more it does not, and takes a block of its own. -/
theorem padBlock_of_long {c : HashContext} (long : 56 ≤ c.pendLen.val) :
    padBlock c =
      (compress c.words (zeroRange (c.pendLen.val + 1) 64 (c.blk.setIfInBounds c.pendLen.val 0x80)),
        zeroRange 0 56 (zeroRange (c.pendLen.val + 1) 64 (c.blk.setIfInBounds c.pendLen.val 0x80))) :=
  if_neg (not_le.2 long)

/-- The block that holds the length alone. -/
theorem fullBlock_append_zeros_length {m : List Byte} (aligned : m.length % 64 = 0) (l : BitVec 64)
    (blk : Vector Byte 64) :
    fullBlock (m ++ (List.replicate 56 0 ++ be64 l)) (m.length / 64) = putLength l (zeroRange 0 56 blk) := by
  refine Vector.ext fun i hi => ?_
  rw [fullBlock_append_tail _ _ hi (by omega), aligned, Nat.sub_zero]
  rcases lt_or_ge i 56 with low | high
  · rw [putLength_getElem_low l _ low, List.getD_append _ _ _ _ (by simpa using low), List.getD_replicate _ low,
      zeroRange, Vector.getElem_ofFn, if_pos ⟨Nat.zero_le i, low⟩]
  · rw [putLength_getElem_high l _ hi high, List.getD_append_right _ _ _ _ (by simpa using high),
      List.length_replicate]

section
variable {m : List Byte} {c : HashContext} (hc : HoldsMessage m c) (l : BitVec 64)
include hc

/-- The block that holds the pending bytes, the mark and the length. -/
theorem HoldsMessage.fullBlock_marked_length (short : m.length % 64 ≤ 55) :
    fullBlock (m ++ (markedZeros (55 - m.length % 64) ++ be64 l)) (m.length / 64) =
      putLength l (zeroRange (c.pendLen.val + 1) 56 (c.blk.setIfInBounds c.pendLen.val 0x80)) := by
  refine Vector.ext fun i hi => ?_
  rcases lt_or_ge i 56 with low | high
  · rw [putLength_getElem_low l _ low, zeroRange_marked_getElem c.blk hi low, hc.pendLen]
    split_ifs with pending
    · exact hc.fullBlock_append_head _ hi pending
    · rw [fullBlock_append_tail m _ hi (not_lt.1 pending), List.getD_append _ _ _ _ (by simp; omega)]
      congr 2
      omega
  · rw [putLength_getElem_high l _ hi high, fullBlock_append_tail m _ hi (by omega),
      List.getD_append_right _ _ _ _ (by simp; omega), markedZeros_length]
    congr 1
    omega

/-- The block that holds the pending bytes and the mark. -/
theorem HoldsMessage.fullBlock_marked :
    fullBlock (m ++ markedZeros (63 - m.length % 64)) (m.length / 64) =
      zeroRange (c.pendLen.val + 1) 64 (c.blk.setIfInBounds c.pendLen.val 0x80) := by
  refine Vector.ext fun i hi => ?_
  rw [zeroRange_marked_getElem c.blk hi hi, hc.pendLen]
  split_ifs with pending
  · exact hc.fullBlock_append_head _ hi pending
  · rw [fullBlock_append_tail m _ hi (not_lt.1 pending)]
    congr 2
    omega

/-- With at most 55 bytes pending, the mark, the zeros and the length fill the block. -/
theorem HoldsMessage.chainingValue_pad_short (short : m.length % 64 ≤ 55) :
    chainingValue (m ++ (markedZeros (55 - m.length % 64) ++ be64 l)) =
      compress (padBlock c).1 (putLength l (padBlock c).2) := by
  rw [chainingValue_append (by simp; omega), hc.fullBlock_marked_length l short, ← hc.words,
    padBlock_of_short (hc.pendLen ▸ short)]

/-- With more bytes pending, the mark and zeros fill the block, and zeros and the length fill another. -/
theorem HoldsMessage.chainingValue_pad_long (long : 56 ≤ m.length % 64) :
    chainingValue (m ++ markedZeros (63 - m.length % 64) ++ (List.replicate 56 0 ++ be64 l)) =
      compress (padBlock c).1 (putLength l (padBlock c).2) := by
  have aligned : (m ++ markedZeros (63 - m.length % 64)).length % 64 = 0 := by
    simp
    omega
  rw [chainingValue_append (by rw [aligned]; rfl), chainingValue_append (by simp; omega), hc.fullBlock_marked,
    fullBlock_append_zeros_length aligned, ← hc.words, padBlock_of_long (hc.pendLen ▸ long)]

/-- The padding of the message compresses to the chaining value `finalizeDigest` writes out. -/
theorem HoldsMessage.chainingValue_paddedMessage :
    chainingValue (paddedMessage m) =
      compress (padBlock c).1 (putLength (BitVec.ofNat 64 (8 * m.length)) (padBlock c).2) := by
  rcases le_or_gt (m.length % 64) 55 with short | long
  · have zeros : (119 - m.length % 64) % 64 = 55 - m.length % 64 := by omega
    rw [← hc.chainingValue_pad_short _ short, paddedMessage, zeros]
    simp only [markedZeros, List.append_assoc, List.cons_append, List.nil_append]
  · have zeros : (119 - m.length % 64) % 64 = 63 - m.length % 64 + 56 := by omega
    rw [← hc.chainingValue_pad_long _ long, paddedMessage, zeros, List.replicate_add]
    simp only [markedZeros, List.append_assoc, List.cons_append, List.nil_append]

end

theorem paddedMessage_length_mod (m : List Byte) : (paddedMessage m).length % 64 = 0 := by
  simp only [paddedMessage, List.length_append, List.length_singleton, List.length_replicate, be64_length]
  omega

/-- Settles O37: what SHA_FINAL does to the pending bytes is to absorb the padding. -/
theorem sha256IsStandardPaddedHash : Obligations.Sha256IsStandardPaddedHash := by
  refine fun m hm => ⟨paddedMessage_length_mod m, ?_⟩
  have count := absorb_initContext_count hm
  have bits : bitLength .full64 (absorb initContext m).count = BitVec.ofNat 64 (8 * m.length) :=
    BitVec.eq_of_toNat_eq (by rw [bitLength_full64_toNat (count ▸ hm), count, BitVec.toNat_ofNat]; omega)
  rw [sha256, finalizeDigest, bits, (holdsMessage_absorb m).chainingValue_paddedMessage]

end Sys2Proof.Machine

/-! HMAC (41_hmac.md R140 to R143). -/

namespace Sys2Proof.Machine

/-! ### The commands apart from the streaming hash (41_hmac.md R143) -/

/-- Only SHA_FINAL draws free values (log 8). -/
theorem nextDraws_of_ne_shaFinal {i : Instr} (final : i ≠ .shaFinal) (s : State) : nextDraws i s = s.draws := by
  cases i with
  | shaFinal => exact absurd rfl final
  | _ => rfl

/-- The other commands, when they complete, change RESULT and memory only. -/
theorem completed_of_not_sha {i : Instr} (init : i ≠ .shaInit) (update : i ≠ .shaUpdate) (final : i ≠ .shaFinal)
    (s : State) : completed i s = { s with result := .success, mem := (completed i s).mem } := by
  rw [completed, nextUctx_of_not_sha init update final, nextDraws_of_ne_shaFinal final]

/-- Settles O43: failed, such a command changes RESULT only; completed, it keeps the context and
the draw counter. -/
theorem otherCommandsLeaveUserContext : Obligations.OtherCommandsLeaveUserContext := by
  intro i s t other h
  have ⟨init, update, final⟩ : i ≠ .shaInit ∧ i ≠ .shaUpdate ∧ i ≠ .shaFinal := by
    rcases other with rfl | rfl | rfl | rfl <;> decide
  rcases exec_cases h with ⟨r, rfl⟩ | ⟨-, rfl⟩
  · exact ⟨rfl, rfl⟩
  · exact ⟨nextUctx_of_not_sha init update final s, nextDraws_of_ne_shaFinal final s⟩

/-! ### HMAC (41_hmac.md R140 to R142) -/

theorem memRead_completed_hmac (s : State) :
    memRead (completed .hmac s) (arg s 3) 32 =
      hmacSha256 s.lenMode (memRead s (arg s 0) 16) (memRead s (arg s 1) (arg s 2)) :=
  (memRead_eq_of rfl rfl _ _).trans (memRead_memWrite_same (arg s 3)
    (hmacSha256 s.lenMode (memRead s (arg s 0) 16) (memRead s (arg s 1) (arg s 2))) s)

/-- Settles O41: HMAC completes, and its only store is the MAC at its operand. -/
theorem hmacWritesMac : Obligations.HmacWritesMac := by
  intro s ready
  exact ⟨completed .hmac s, exec_eq_completed ready, completed_of_not_sha (i := .hmac) nofun nofun nofun s,
    memRead_completed_hmac s, fun _ outside => memByte_completed_outside outside⟩

/-- The pad of a 16-byte key is the zero-padded key XORed with 64 pad bytes. -/
theorem hmacPad_eq_zipWith {key : List Byte} (h : key.length = 16) (byte : Byte) :
    hmacPad byte key = List.zipWith (· ^^^ ·) (key ++ List.replicate 48 0) (List.replicate 64 byte) := by
  have pads : List.replicate 64 byte = List.replicate key.length byte ++ List.replicate 48 byte := by
    rw [h, List.replicate_append_replicate]
  have keyPart : List.zipWith (· ^^^ ·) key (List.replicate key.length byte) = key.map (· ^^^ byte) := by
    rw [← List.map_const', List.zipWith_map_right, List.zipWith_self]
  have zeroPart : List.zipWith (· ^^^ ·) (List.replicate 48 0) (List.replicate 48 byte) = List.replicate 48 byte := by
    rw [List.zipWith_replicate']
    exact congrArg (List.replicate 48) BitVec.zero_xor
  rw [pads, List.zipWith_append List.length_replicate.symm, keyPart, zeroPart, hmacPad]

/-- Settles O42: each pad is that of the standard. -/
theorem hmacIsStandardHmac : Obligations.HmacIsStandardHmac := by
  intro mode key m h
  rw [hmacSha256, outerPad, innerPad, hmacPad_eq_zipWith h, hmacPad_eq_zipWith h]

end Sys2Proof.Machine

/-! The CBC commands, block by block (42_cbc.md R161 to R166). -/

namespace Sys2Proof.Machine

/-! ### Blocks (00_scope.md R14) -/

/-- XOR with the same block twice is no change. -/
@[simp] theorem xorBlock_xorBlock_right (x y : Block) : xorBlock (xorBlock x y) y = x := by
  refine Vector.ext fun i hi => ?_
  simp only [xorBlock, Vector.getElem_zipWith, BitVec.xor_assoc, BitVec.xor_self, BitVec.xor_zero]

/-- Equal blocks hold equal bytes. -/
theorem memByte_eq_of_readBlock_eq {s t : State} {a i : Nat} (h : readBlock s a = readBlock t a) (hi : i < 16) :
    memByte s (a + i) = memByte t (a + i) := by
  have byte := congrArg (fun b : Block => b[i]) h
  simpa only [readBlock, Vector.getElem_ofFn] using byte

/-- States that agree on each of `n` blocks agree on every byte of them. -/
theorem memByte_eq_of_blocks_eq {s t : State} {a n x : Nat}
    (blocks : ∀ j, j < n → readBlock s (a + 16 * j) = readBlock t (a + 16 * j)) (lo : a ≤ x) (hi : x < a + 16 * n) :
    memByte s x = memByte t x := by
  have position : x = a + 16 * ((x - a) / 16) + (x - a) % 16 := by omega
  rw [position]
  exact memByte_eq_of_readBlock_eq (blocks _ (by omega)) (Nat.mod_lt _ (by decide))

/-- The block before block `j` of the buffer at `a`: `iv` stands before the first. -/
def chainBlock (iv : Block) (s : State) (a j : Nat) : Block :=
  if j = 0 then iv else readBlock s (a + 16 * (j - 1))

theorem chainBlock_zero (iv : Block) (s : State) (a : Nat) : chainBlock iv s a 0 = iv := if_pos rfl

theorem chainBlock_succ (iv : Block) (s : State) (a j : Nat) :
    chainBlock iv s a (j + 1) = readBlock s (a + 16 * j) := if_neg (Nat.succ_ne_zero j)

/-- The block before block `j + 1` of a buffer, seen from the buffer's second block on. -/
theorem chainBlock_readBlock_next (iv : Block) (s : State) (a j : Nat) :
    chainBlock (readBlock s a) s (a + 16) j = chainBlock iv s a (j + 1) := by
  cases j with
  | zero => rw [chainBlock_zero, chainBlock_succ, Nat.mul_zero, Nat.add_zero]
  | succ j => rw [chainBlock_succ, chainBlock_succ, Nat.mul_succ, Nat.add_comm (16 * j), Nat.add_assoc]

theorem chainBlock_congr {s t : State} {a j : Nat} (iv : Block)
    (h : ∀ k, k + 1 = j → readBlock s (a + 16 * k) = readBlock t (a + 16 * k)) :
    chainBlock iv s a j = chainBlock iv t a j := by
  cases j with
  | zero => rw [chainBlock_zero, chainBlock_zero]
  | succ j => rw [chainBlock_succ, chainBlock_succ, h j rfl]

/-! ### The loops (42_cbc.md R161, R162, R166) -/

/-- The encryption loop leaves in its first block what it computed for it. -/
theorem readBlock_cbcEncryptLoop_first (enc : Block → Block) (n a : Nat) (chain : Block) (s : State) :
    readBlock (cbcEncryptLoop enc (n + 1) a chain s) a = enc (xorBlock (readBlock s a) chain) := by
  rw [cbcEncryptLoop, readBlock_congr fun x _ hi => memByte_cbcEncryptLoop_outside enc n _ _ (.inl hi),
    readBlock_writeBlock_same]

/-- R166: ciphertext block `j` chains on the ciphertext before it. -/
theorem readBlock_cbcEncryptLoop (enc : Block → Block) {n j : Nat} (hj : j < n) (a : Nat) (chain : Block) (s : State) :
    readBlock (cbcEncryptLoop enc n a chain s) (a + 16 * j) =
      enc (xorBlock (readBlock s (a + 16 * j)) (chainBlock chain (cbcEncryptLoop enc n a chain s) a j)) := by
  induction n generalizing j a chain s with
  | zero => exact absurd hj (Nat.not_lt_zero j)
  | succ n ih =>
    have first := readBlock_cbcEncryptLoop_first enc n a chain s
    cases j with
    | zero => exact first
    | succ j =>
      have shift : a + 16 * (j + 1) = a + 16 + 16 * j := by omega
      rw [← chainBlock_readBlock_next, first, shift, cbcEncryptLoop, ih (Nat.lt_of_succ_lt_succ hj),
        readBlock_writeBlock_outside (by omega)]

/-- The decryption loop leaves in its first block what it computed for it. -/
theorem readBlock_cbcDecryptLoop_first (dec : Block → Block) (n a : Nat) (chain : Block) (s : State) :
    readBlock (cbcDecryptLoop dec (n + 1) a chain s) a = xorBlock (dec (readBlock s a)) chain := by
  rw [cbcDecryptLoop, readBlock_congr fun x _ hi => memByte_cbcDecryptLoop_outside dec n _ _ (.inl hi),
    readBlock_writeBlock_same]

/-- R166: plaintext block `j` chains on the ciphertext before it, as it stood at the start. -/
theorem readBlock_cbcDecryptLoop (dec : Block → Block) {n j : Nat} (hj : j < n) (a : Nat) (chain : Block) (s : State) :
    readBlock (cbcDecryptLoop dec n a chain s) (a + 16 * j) =
      xorBlock (dec (readBlock s (a + 16 * j))) (chainBlock chain s a j) := by
  induction n generalizing j a chain s with
  | zero => exact absurd hj (Nat.not_lt_zero j)
  | succ n ih =>
    cases j with
    | zero => exact readBlock_cbcDecryptLoop_first dec n a chain s
    | succ j =>
      have shift : a + 16 * (j + 1) = a + 16 + 16 * j := by omega
      rw [← chainBlock_readBlock_next, shift, cbcDecryptLoop, ih (Nat.lt_of_succ_lt_succ hj),
        readBlock_writeBlock_outside (by omega), chainBlock_congr _ fun k _ => readBlock_writeBlock_outside (by omega) _ s]

/-! ### The commands (42_cbc.md R161 to R166) -/

/-- CBC_CIPHER completes as its loop leaves the state. -/
theorem completed_cbcCipher (s : State) :
    completed .cbcCipher s = { cbcEncryptLoop (Config.encrypt (readBlock s (arg s 0))) (arg s 3 / 16) (arg s 2)
      (readBlock s (arg s 1)) s with result := .success } := by
  rw [cbcEncryptLoop_frame]
  rfl

/-- CBC_DECIPHER completes as its loop leaves the state. -/
theorem completed_cbcDecipher (s : State) :
    completed .cbcDecipher s = { cbcDecryptLoop (Config.decrypt (readBlock s (arg s 0))) (arg s 3 / 16) (arg s 2)
      (readBlock s (arg s 1)) s with result := .success } := by
  rw [cbcDecryptLoop_frame]
  rfl

theorem readBlock_completed_cbcCipher (s : State) {j : Nat} (hj : j < arg s 3 / 16) :
    readBlock (completed .cbcCipher s) (arg s 2 + 16 * j) =
      Config.encrypt (readBlock s (arg s 0)) (xorBlock (readBlock s (arg s 2 + 16 * j))
        (chainBlock (readBlock s (arg s 1)) (completed .cbcCipher s) (arg s 2) j)) := by
  rw [completed_cbcCipher]
  exact readBlock_cbcEncryptLoop _ hj _ _ s

theorem readBlock_completed_cbcDecipher (s : State) {j : Nat} (hj : j < arg s 3 / 16) :
    readBlock (completed .cbcDecipher s) (arg s 2 + 16 * j) =
      xorBlock (Config.decrypt (readBlock s (arg s 0)) (readBlock s (arg s 2 + 16 * j)))
        (chainBlock (readBlock s (arg s 1)) s (arg s 2) j) := by
  rw [completed_cbcDecipher]
  exact readBlock_cbcDecryptLoop _ hj _ _ s

/-- Settles O44: CBC_CIPHER completes, its loop chains on the ciphertext, and it stores to its buffer only. -/
theorem cbcCipherChainsBlocks : Obligations.CbcCipherChainsBlocks := by
  intro s ready
  exact ⟨completed .cbcCipher s, exec_eq_completed ready, completed_of_not_sha (i := .cbcCipher) nofun nofun nofun s,
    fun _ hj => readBlock_completed_cbcCipher s hj, fun _ outside => memByte_completed_outside outside⟩

/-- Settles O45: CBC_DECIPHER completes, its loop chains on the captured ciphertext, and it stores to its buffer only. -/
theorem cbcDecipherUnchainsBlocks : Obligations.CbcDecipherUnchainsBlocks := by
  intro s ready
  exact ⟨completed .cbcDecipher s, exec_eq_completed ready,
    completed_of_not_sha (i := .cbcDecipher) nofun nofun nofun s,
    fun _ hj => readBlock_completed_cbcDecipher s hj, fun _ outside => memByte_completed_outside outside⟩

/-- Settles O46: plaintext block `k` is a function of key, IV and ciphertext blocks `k` and `k - 1`. -/
theorem cbcDecipherErrorStaysLocal : Obligations.CbcDecipherErrorStaysLocal := by
  intro s1 s2 t1 t2 j ready args memSize key iv blocks h1 h2 k hk notJ notNext
  have argEq : arg s1 = arg s2 := by
    funext i
    rw [arg, args, arg]
  have ready2 : Ready .cbcDecipher s2 := by
    simp only [Ready, argEq, memSize] at ready
    exact ready
  cases exec_of_ready ready h1
  cases exec_of_ready ready2 h2
  have chain : chainBlock (readBlock s1 (arg s1 1)) s1 (arg s1 2) k =
      chainBlock (readBlock s2 (arg s1 1)) s2 (arg s1 2) k := by
    rw [iv]
    exact chainBlock_congr _ fun l next => blocks l (by omega) (by omega)
  have plain2 := readBlock_completed_cbcDecipher s2 (argEq ▸ hk)
  rw [← argEq] at plain2
  rw [readBlock_completed_cbcDecipher s1 hk, plain2, key, blocks k hk notJ, chain]

/-- R165 on the blocks: deciphering what CBC_CIPHER left, under the same key and IV, gives the plaintext back. -/
theorem readBlock_cbc_roundTrip {s : State} {j : Nat} (hj : j < arg s 3 / 16)
    (key : readBlock (completed .cbcCipher s) (arg s 0) = readBlock s (arg s 0))
    (iv : readBlock (completed .cbcCipher s) (arg s 1) = readBlock s (arg s 1)) :
    readBlock (completed .cbcDecipher (completed .cbcCipher s)) (arg s 2 + 16 * j) =
      readBlock s (arg s 2 + 16 * j) := by
  have plain := readBlock_completed_cbcDecipher (completed .cbcCipher s) hj
  have same : arg (completed .cbcCipher s) = arg s := rfl
  rw [same, key, iv, readBlock_completed_cbcCipher s hj, Config.decrypt_encrypt, xorBlock_xorBlock_right] at plain
  exact plain

/-- CBC_CIPHER keeps a block that does not overlap its buffer. -/
theorem readBlock_completed_cbcCipher_disjoint {s : State} {p : Nat}
    (disjoint : p + 16 ≤ arg s 2 ∨ arg s 2 + arg s 3 ≤ p) :
    readBlock (completed .cbcCipher s) p = readBlock s p :=
  readBlock_congr fun _ lo hi => memByte_completed_outside (i := .cbcCipher) fun inside => by
    obtain ⟨above, below⟩ := inside
    dsimp only [storedRegion] at above below
    omega

/-- Settles O48: key and IV are as before in the second command, so each block comes back (`readBlock_cbc_roundTrip`). -/
theorem cbcRoundTrip : Obligations.CbcRoundTrip := by
  intro s t u ready keyDisjoint ivDisjoint h1 h2
  cases exec_of_ready ready h1
  have ready2 : Ready .cbcDecipher (completed .cbcCipher s) := ready
  cases exec_of_ready ready2 h2
  refine ⟨rfl, rfl, fun a => ?_⟩
  by_cases inside : InRegion a (arg s 2, arg s 3)
  · obtain ⟨-, -, -, multiple, -⟩ := ready
    obtain ⟨lo, hi⟩ := inside
    exact memByte_eq_of_blocks_eq (n := arg s 3 / 16)
      (fun j hj => readBlock_cbc_roundTrip hj (readBlock_completed_cbcCipher_disjoint keyDisjoint)
        (readBlock_completed_cbcCipher_disjoint ivDisjoint)) lo (by dsimp only at hi; omega)
  · exact (memByte_completed_outside (i := .cbcDecipher) (s := completed .cbcCipher s) inside).trans
      (memByte_completed_outside (i := .cbcCipher) inside)

/-! ### The length rule (42_cbc.md R163) -/

/-- A buffer of length 0 has no block to process. -/
theorem completed_cbc_of_len_zero {i : Instr} {s : State} (cbc : i = .cbcCipher ∨ i = .cbcDecipher)
    (empty : arg s 3 = 0) : completed i s = { s with result := .success } := by
  have noBlock : arg s 3 / 16 = 0 := by rw [empty]
  rcases cbc with rfl | rfl
  · rw [completed_cbcCipher, noBlock, cbcEncryptLoop]
  · rw [completed_cbcDecipher, noBlock, cbcDecryptLoop]

theorem badParameter_of_cbc_length {i : Instr} {s : State} (cbc : i = .cbcCipher ∨ i = .cbcDecipher)
    (length : arg s 3 % 16 ≠ 0) : BadParameter i s := by
  rcases cbc with rfl | rfl <;> exact .inr (.inr (.inr length))

/-- Settles O47: a bad length is a bad parameter, and a command that is Ready completes. -/
theorem cbcLengthRule : Obligations.CbcLengthRule := by
  intro i s cbc
  refine ⟨fun length => ?_, fun empty ready => ?_, fun ready => ⟨_, exec_eq_completed ready, rfl⟩⟩
  · have context : ¬ BadContext i s := by
      rcases cbc with rfl | rfl <;> simp [BadContext]
    exact exec_of_badParameter context (badParameter_of_cbc_length cbc length)
  · rw [exec_eq_completed ready, completed_cbc_of_len_zero cbc empty]

end Sys2Proof.Machine

/-! KDF_DERIVE (43_kdf.md R180 to R183). -/

namespace Sys2Proof.Machine

/-! ### Parts of a read (20_memory.md R51) -/

theorem take_memRead {k n : Nat} (h : k ≤ n) (s : State) (a : Nat) : (memRead s a n).take k = memRead s a k := by
  rw [memRead, ← List.map_take, List.take_range, min_eq_left h, memRead]

theorem drop_memRead (s : State) (a n k : Nat) : (memRead s a n).drop k = memRead s (a + k) (n - k) := by
  refine List.ext_getElem (by simp) fun i _ _ => ?_
  simp [memRead, Nat.add_assoc]

/-! ### The session key material (43_kdf.md R182, R183) -/

@[simp] theorem sha256_length (mode : LenMode) (m : List Byte) : (sha256 mode m).length = 32 :=
  finalizeDigest_length mode (absorb initContext m)

/-- The two hashes are the two halves of the key material. -/
theorem take_kdfMaterial (enc : Block → Block → Block) (mode : LenMode) (a r : Block) :
    (kdfMaterial enc mode a r).take 32 = sha256 mode (kdfCtr1 ++ (kdfRekeyed enc a r).toList ++ kdfTag1) :=
  List.take_left' (sha256_length mode _)

theorem drop_kdfMaterial (enc : Block → Block → Block) (mode : LenMode) (a r : Block) :
    (kdfMaterial enc mode a r).drop 32 = sha256 mode (kdfCtr2 ++ (kdfRekeyed enc a r).toList ++ kdfTag2) :=
  List.drop_left' (sha256_length mode _)

/-- The 64 bytes at `out` after KDF_DERIVE, from the inputs as they stood at the start (20_memory.md R56). -/
theorem memRead_completed_kdfDerive (s : State) :
    memRead (completed .kdfDerive s) (arg s 3) 64 =
      kdfMaterial Config.encrypt s.lenMode (readBlock s (arg s 0)) (readBlock s (arg s 2)) :=
  (memRead_eq_of rfl rfl _ _).trans (memRead_memWrite_same (arg s 3)
    (kdfMaterial Config.encrypt s.lenMode (readBlock s (arg s 0)) (readBlock s (arg s 2))) s)

/-- Settles O50: the 64 bytes at `out` are two hashes, and each session key is a half of one. -/
theorem kdfWritesSessionKeys : Obligations.KdfWritesSessionKeys := by
  intro s ready a w first second
  have material := memRead_completed_kdfDerive s
  have firstHash : memRead (completed .kdfDerive s) (arg s 3) 32 = first :=
    calc memRead (completed .kdfDerive s) (arg s 3) 32
      _ = (memRead (completed .kdfDerive s) (arg s 3) 64).take 32 := (take_memRead (by decide) _ _).symm
      _ = first := by rw [material, take_kdfMaterial]; rfl
  have secondHash : memRead (completed .kdfDerive s) (arg s 3 + 32) 32 = second :=
    calc memRead (completed .kdfDerive s) (arg s 3 + 32) 32
      _ = (memRead (completed .kdfDerive s) (arg s 3) 64).drop 32 := (drop_memRead _ _ 64 32).symm
      _ = second := by rw [material, drop_kdfMaterial]; rfl
  refine ⟨completed .kdfDerive s, exec_eq_completed ready,
    completed_of_not_sha (i := .kdfDerive) nofun nofun nofun s, ?_, ?_, ?_, ?_,
    fun _ outside => memByte_completed_outside outside⟩
  · rw [← firstHash, take_memRead (by decide)]
  · rw [← firstHash, drop_memRead]
  · rw [← secondHash, take_memRead (by decide)]
  · rw [← secondHash, drop_memRead]

/-! ### RndA (43_kdf.md R181) -/

theorem not_badContext_kdfDerive (s : State) : ¬ BadContext .kdfDerive s := by simp [BadContext]

/-- The checks of KDF_DERIVE decide its result code. -/
theorem kdfDerive_result_eq_of_checks {s1 s2 t1 t2 : State}
    (parameter : BadParameter .kdfDerive s1 ↔ BadParameter .kdfDerive s2)
    (region : BadRegion .kdfDerive s1 ↔ BadRegion .kdfDerive s2)
    (h1 : exec .kdfDerive s1 = .next t1) (h2 : exec .kdfDerive s2 = .next t2) : t1.result = t2.result := by
  obtain ⟨-, parameter1, region1, success1⟩ := exec_result h1
  obtain ⟨-, parameter2, region2, success2⟩ := exec_result h2
  have context1 := not_badContext_kdfDerive s1
  have context2 := not_badContext_kdfDerive s2
  by_cases bad : BadParameter .kdfDerive s1
  · rw [parameter1 context1 bad, parameter2 context2 (parameter.1 bad)]
  have good2 := mt parameter.2 bad
  by_cases fault : BadRegion .kdfDerive s1
  · rw [region1 context1 bad fault, region2 context2 good2 (region.1 fault)]
  · rw [success1 context1 bad fault, success2 context2 good2 (mt region.2 fault)]

/-- KDF_DERIVE has no guard, so on Success it had its whole effect. -/
theorem kdfDerive_completed_of_success {s t : State} (h : exec .kdfDerive s = .next t) (ok : t.result = .success) :
    t = completed .kdfDerive s := by
  rcases execKdfDerive_cases h with ⟨rfl, -⟩ | ⟨rfl, -⟩ | ⟨-, done⟩
  · nomatch ok
  · nomatch ok
  · exact done

/-- Settles O51: a nonzero RndA is in no check, and neither it nor the bytes it points at are in the key material. -/
theorem kdfIgnoresRndA : Obligations.KdfIgnoresRndA := by
  refine ⟨fun s null => exec_of_badParameter (not_badContext_kdfDerive s) (.inr (.inl null)), ?_⟩
  intro s1 s2 t1 t2 rndA1 rndA2 authKey rndB out memSize lenMode authKeyBytes rndBBytes h1 h2
  have parameter : BadParameter .kdfDerive s1 ↔ BadParameter .kdfDerive s2 := by
    simp only [BadParameter, rndA1, rndA2, authKey, rndB, out]
  have region : BadRegion .kdfDerive s1 ↔ BadRegion .kdfDerive s2 := by
    simp only [BadRegion, regions, authKey, rndB, out, memSize]
  have result := kdfDerive_result_eq_of_checks parameter region h1 h2
  refine ⟨result, fun ok => ?_⟩
  rw [kdfDerive_completed_of_success h1 ok, kdfDerive_completed_of_success h2 (result ▸ ok),
    memRead_completed_kdfDerive, lenMode, authKeyBytes, rndBBytes, out, authKey, rndB, memRead_completed_kdfDerive]

end Sys2Proof.Machine

/-! What the checks of 60_exceptions.md say of a command's answer, and the engine that waits (R201 to R219). -/

namespace Sys2Proof.Machine

/-! ### The result of a write to CMD (60_exceptions.md R202, R207, R208) -/

/-- Settles O18: no branch of a command faults or is refused (`exec_answers`). -/
theorem everyCommandAnswers : Obligations.EveryCommandAnswers := exec_answers

/-- Settles O19: a word that decodes to a command answers as the command does, whose checks `exec_result` orders. -/
theorem resultCodePriority : Obligations.ResultCodePriority := by
  intro w s t h
  refine ⟨fun e undecoded => ?_, fun i decoded => ?_⟩
  · cases (writeCommand_error undecoded s).symm.trans h
    rfl
  · have answer : exec i s = .next t := (writeCommand_ok decoded s).symm.trans h
    exact exec_result answer

/-- Settles O21: of the five ways a command ends, only the first answers InvalidContext, and the others have passed the
context check. -/
theorem invalidContextExactlyOutsideActive : Obligations.InvalidContextExactlyOutsideActive := by
  intro i s t h
  cases commandEnds_of_exec h with
  | badContext bad => exact iff_of_true rfl bad
  | badParameter context _ => exact iff_of_false nofun context
  | badRegion context _ _ => exact iff_of_false nofun context
  | guard context _ _ _ => exact iff_of_false nofun context
  | done ready =>
    obtain ⟨context, -⟩ := (ready_iff i s).1 ready
    exact iff_of_false nofun context

/-! ### The engine that waits (60_exceptions.md R217) -/

/-- Settles O5: the host's list has no entry to perform. -/
theorem idleEngineKeepsState : Obligations.IdleEngineKeepsState := by
  intro s idle
  rw [step, hostStep, idle]

end Sys2Proof.Machine

/-! The context between reset and the first SHA_INIT (70_reset_and_hazards.md R232). -/

namespace Sys2Proof.Machine

/-- Before the first SHA_INIT the streaming commands fail their context check. -/
theorem badContext_of_uninit {i : Instr} {s : State} (uninit : s.uctx.phase = .uninit)
    (streaming : i = .shaUpdate ∨ i = .shaFinal) : BadContext i s :=
  ⟨streaming, fun active => nomatch uninit.symm.trans active⟩

/-- Settles O17: in an UNINIT state SHA_UPDATE and SHA_FINAL stop at the context check, which SHA_INIT does not have. -/
theorem resetIsNotShaInit : Obligations.ResetIsNotShaInit := by
  refine ⟨rfl, fun s uninit => ⟨?_, ?_, ?_⟩⟩
  · exact exec_of_badContext (badContext_of_uninit uninit (.inl rfl))
  · exact exec_of_badContext (badContext_of_uninit uninit (.inr rfl))
  · exact ⟨completed .shaInit s, exec_eq_completed trivial, rfl, rfl, rfl, rfl⟩

end Sys2Proof.Machine
